-- ==== Sys2Proof/Word.lean ====
section
/-! DEFINITION. The two word types of the core: bytes and addresses (spec 00_scope.md R8, R18). -/

namespace Sys2Proof

/-- `u8`: the content of a register `A`, `X`, `Y`, `SP` or of a memory cell (R8, R18). -/
abbrev Byte := BitVec 8

/-- `u16`: an address, and the content of `PC` (R8, R18). -/
abbrev Addr := BitVec 16

end Sys2Proof
end

