-- ==== Sys2Proof/Config.lean ====
section
/-! DEFINITION. What one implementation fixes (spec 00_scope.md R8): the three switchable parameters as a
structure, and the open `SP_RESET` as a constant without a body. The values this model runs with are
`modelParams` in Decode.lean. -/

namespace Sys2Proof

/-- The parameters a model may take as arguments (R8; decisions D7, D8, D9 of 92_eei_decisions.md). -/
structure Params where
  /-- `OPC_INC_A`: the opcode byte of INC A (R185). -/
  opcIncA : Byte
  /-- `TRANSFER_SETS_NZ`: whether TAX, TXA, TAY and TYA write `Z` and `N` (R170). -/
  transferSetsNZ : Bool
  /-- `INDIRECT_ENTRIES_PRESENT`: whether 0x81, 0x91, 0xA1, 0xB1 have a table entry (R91). -/
  indirectEntriesPresent : Bool
  deriving DecidableEq, Repr

/-- `SP_RESET` (R8, R43): an OPEN 8-bit value, "it takes `SP_RESET` as an argument or quantifies over it".
A constant without a body, so that no proof can use a value of it.
DESIGN CHOICE (the form, log entry 2), safe. -/
opaque Config.spReset : Byte

end Sys2Proof
end

