-- ==== Sys2Proof/Syntax.lean ====
section
/-! DEFINITION. The instruction syntax: mnemonics, addressing modes, operand forms, and `Instr` with one
constructor for each of the 49 rows of spec/opcode_table.json (spec 30_encoding.md R86). -/

namespace Sys2Proof

/-- The instruction semantics an opcode-table entry names (R85, R87). -/
inductive Mnemonic where
  | lda | ldx | ldy
  | sta | stx | sty
  | tax | txa | tay | tya
  | inx | iny | dex | dey | incA
  | clc | sec | cli | sei | cld | sed | clv
  | nop
  | jmp
  deriving DecidableEq, Repr

/-- The closed enumeration of addressing-mode tags (40_step_and_addressing.md R107). -/
inductive Mode where
  | implied | immediate
  | zeroPage | zeroPageX | zeroPageY
  | absolute | absoluteX | absoluteY
  | indirectX | indirectY
  deriving DecidableEq, Repr

/-- The operand forms that name one memory cell (R111 to R116). `b1` is the operand byte, `base` the
assembled 16-bit operand. -/
inductive MemOperand where
  | zeroPage (b1 : Byte)
  | zeroPageX (b1 : Byte)
  | zeroPageY (b1 : Byte)
  | absolute (base : Addr)
  | absoluteX (base : Addr)
  | absoluteY (base : Addr)
  deriving DecidableEq, Repr

/-- Where a load takes its value from: the value-wanting caller of R118. A store takes a `MemOperand`, the
address-wanting caller, so a store to Immediate cannot be written down. -/
inductive Source where
  | immediate (b1 : Byte)
  | memory (m : MemOperand)
  deriving DecidableEq, Repr

/-- An instruction's operand in any of the ten modes (R82). The byte of the two indirect modes belongs to the
encoding and is never used (R117). -/
inductive Operand where
  | implied
  | immediate (b1 : Byte)
  | memory (m : MemOperand)
  | indirectX (b1 : Byte)
  | indirectY (b1 : Byte)
  deriving DecidableEq, Repr

/-- The instructions: one constructor for each row of the opcode map (R86). -/
inductive Instr where
  -- 41_load.md
  | ldaImmediate (b1 : Byte)
  | ldaZeroPage (b1 : Byte)
  | ldaZeroPageX (b1 : Byte)
  | ldaAbsolute (base : Addr)
  | ldaAbsoluteX (base : Addr)
  | ldaAbsoluteY (base : Addr)
  | ldaIndirectX (b1 : Byte)
  | ldaIndirectY (b1 : Byte)
  | ldxImmediate (b1 : Byte)
  | ldxZeroPage (b1 : Byte)
  | ldxZeroPageY (b1 : Byte)
  | ldxAbsolute (base : Addr)
  | ldxAbsoluteY (base : Addr)
  | ldyImmediate (b1 : Byte)
  | ldyZeroPage (b1 : Byte)
  | ldyZeroPageX (b1 : Byte)
  | ldyAbsolute (base : Addr)
  | ldyAbsoluteX (base : Addr)
  -- 42_store.md
  | staZeroPage (b1 : Byte)
  | staZeroPageX (b1 : Byte)
  | staAbsolute (base : Addr)
  | staAbsoluteX (base : Addr)
  | staAbsoluteY (base : Addr)
  | staIndirectX (b1 : Byte)
  | staIndirectY (b1 : Byte)
  | stxZeroPage (b1 : Byte)
  | stxZeroPageY (b1 : Byte)
  | stxAbsolute (base : Addr)
  | styZeroPage (b1 : Byte)
  | styZeroPageX (b1 : Byte)
  | styAbsolute (base : Addr)
  -- 43_transfer.md
  | tax | txa | tay | tya
  -- 44_incdec.md
  | inx | iny | dex | dey | incA
  -- 45_flag.md
  | clc | sec | cli | sei | cld | sed | clv
  -- 46_nop.md
  | nop
  -- 47_jump.md
  | jmpAbsolute (target : Addr)
  deriving DecidableEq, Repr

end Sys2Proof
end

