-- ==== Sys2Proof/Decode.lean ====
section
/-! DEFINITION. The opcode map (spec 30_encoding.md R86), the decoder and, after it, the encoder. Decoding is a
pure lookup on the opcode byte (R84); it is total on any bytes and rejects by name. -/

namespace Sys2Proof

/-- The values of the parameters that this model runs with: the spec's defaults (R8).
DESIGN CHOICE (log entry 3), unsafe for an implementation that chose otherwise. It stands here, not in
Config.lean, so that a repair may mend it. -/
def modelParams : Params :=
  { opcIncA := 0x1A#8, transferSetsNZ := false, indirectEntriesPresent := true }

/-! ## Length, mnemonic, operand, entry -/

/-- `nbytes` by mode, the opcode byte included (R83). -/
def Mode.nbytes : Mode → Nat
  | .implied => 1
  | .immediate | .zeroPage | .zeroPageX | .zeroPageY | .indirectX | .indirectY => 2
  | .absolute | .absoluteX | .absoluteY => 3

/-- The two tags that the resolver accepts and faults on (R117). -/
def Mode.unimplemented : Mode → Bool
  | .indirectX | .indirectY => true
  | .implied | .immediate | .zeroPage | .zeroPageX | .zeroPageY
  | .absolute | .absoluteX | .absoluteY => false

def MemOperand.mode : MemOperand → Mode
  | .zeroPage _ => .zeroPage
  | .zeroPageX _ => .zeroPageX
  | .zeroPageY _ => .zeroPageY
  | .absolute _ => .absolute
  | .absoluteX _ => .absoluteX
  | .absoluteY _ => .absoluteY

def Source.mode : Source → Mode
  | .immediate _ => .immediate
  | .memory m => m.mode

def Operand.mode : Operand → Mode
  | .implied => .implied
  | .immediate _ => .immediate
  | .memory m => m.mode
  | .indirectX _ => .indirectX
  | .indirectY _ => .indirectY

/-- Which instruction semantics each constructor has (R86, column mnemonic). -/
def Instr.mnemonic : Instr → Mnemonic
  | .ldaImmediate _ | .ldaZeroPage _ | .ldaZeroPageX _ | .ldaAbsolute _ | .ldaAbsoluteX _
  | .ldaAbsoluteY _ | .ldaIndirectX _ | .ldaIndirectY _ => .lda
  | .ldxImmediate _ | .ldxZeroPage _ | .ldxZeroPageY _ | .ldxAbsolute _ | .ldxAbsoluteY _ => .ldx
  | .ldyImmediate _ | .ldyZeroPage _ | .ldyZeroPageX _ | .ldyAbsolute _ | .ldyAbsoluteX _ => .ldy
  | .staZeroPage _ | .staZeroPageX _ | .staAbsolute _ | .staAbsoluteX _ | .staAbsoluteY _
  | .staIndirectX _ | .staIndirectY _ => .sta
  | .stxZeroPage _ | .stxZeroPageY _ | .stxAbsolute _ => .stx
  | .styZeroPage _ | .styZeroPageX _ | .styAbsolute _ => .sty
  | .tax => .tax
  | .txa => .txa
  | .tay => .tay
  | .tya => .tya
  | .inx => .inx
  | .iny => .iny
  | .dex => .dex
  | .dey => .dey
  | .incA => .incA
  | .clc => .clc
  | .sec => .sec
  | .cli => .cli
  | .sei => .sei
  | .cld => .cld
  | .sed => .sed
  | .clv => .clv
  | .nop => .nop
  | .jmpAbsolute _ => .jmp

/-- The operand of each constructor (R82; R86, column mode). -/
def Instr.operand : Instr → Operand
  | .ldaImmediate b | .ldxImmediate b | .ldyImmediate b => .immediate b
  | .ldaZeroPage b | .ldxZeroPage b | .ldyZeroPage b
  | .staZeroPage b | .stxZeroPage b | .styZeroPage b => .memory (.zeroPage b)
  | .ldaZeroPageX b | .ldyZeroPageX b | .staZeroPageX b | .styZeroPageX b => .memory (.zeroPageX b)
  | .ldxZeroPageY b | .stxZeroPageY b => .memory (.zeroPageY b)
  | .ldaAbsolute a | .ldxAbsolute a | .ldyAbsolute a
  | .staAbsolute a | .stxAbsolute a | .styAbsolute a | .jmpAbsolute a => .memory (.absolute a)
  | .ldaAbsoluteX a | .ldyAbsoluteX a | .staAbsoluteX a => .memory (.absoluteX a)
  | .ldaAbsoluteY a | .ldxAbsoluteY a | .staAbsoluteY a => .memory (.absoluteY a)
  | .ldaIndirectX b | .staIndirectX b => .indirectX b
  | .ldaIndirectY b | .staIndirectY b => .indirectY b
  | .tax | .txa | .tay | .tya | .inx | .iny | .dex | .dey | .incA
  | .clc | .sec | .cli | .sei | .cld | .sed | .clv | .nop => .implied

/-- An opcode-table entry (R85). -/
structure Entry where
  op : Mnemonic
  mode : Mode
  nbytes : Nat
  advance : Bool
  deriving DecidableEq, Repr

/-- `advance` is true for every entry except JMP (R85). -/
def Mnemonic.advances : Mnemonic → Bool
  | .jmp => false
  | .lda | .ldx | .ldy | .sta | .stx | .sty | .tax | .txa | .tay | .tya
  | .inx | .iny | .dex | .dey | .incA
  | .clc | .sec | .cli | .sei | .cld | .sed | .clv | .nop => true

/-- The entry an instruction belongs to (R83, R85). -/
def Instr.entry (i : Instr) : Entry :=
  { op := i.mnemonic, mode := i.operand.mode, nbytes := i.operand.mode.nbytes,
    advance := i.mnemonic.advances }

/-! ## The opcode map -/

/-- One row's format (R81): how the operand bytes that follow the opcode complete the instruction. -/
inductive Form where
  | f1 (i : Instr)
  | f2 (mk : Byte → Instr)
  | f3 (mk : Addr → Instr)

/-- Load rows of R86 with a working mode. -/
def loadRows : List (Byte × Form) :=
  [ (0xA9#8, .f2 .ldaImmediate), (0xA5#8, .f2 .ldaZeroPage), (0xB5#8, .f2 .ldaZeroPageX),
    (0xAD#8, .f3 .ldaAbsolute), (0xBD#8, .f3 .ldaAbsoluteX), (0xB9#8, .f3 .ldaAbsoluteY),
    (0xA2#8, .f2 .ldxImmediate), (0xA6#8, .f2 .ldxZeroPage), (0xB6#8, .f2 .ldxZeroPageY),
    (0xAE#8, .f3 .ldxAbsolute), (0xBE#8, .f3 .ldxAbsoluteY),
    (0xA0#8, .f2 .ldyImmediate), (0xA4#8, .f2 .ldyZeroPage), (0xB4#8, .f2 .ldyZeroPageX),
    (0xAC#8, .f3 .ldyAbsolute), (0xBC#8, .f3 .ldyAbsoluteX) ]

/-- Store rows of R86 with a working mode. -/
def storeRows : List (Byte × Form) :=
  [ (0x85#8, .f2 .staZeroPage), (0x95#8, .f2 .staZeroPageX), (0x8D#8, .f3 .staAbsolute),
    (0x9D#8, .f3 .staAbsoluteX), (0x99#8, .f3 .staAbsoluteY),
    (0x86#8, .f2 .stxZeroPage), (0x96#8, .f2 .stxZeroPageY), (0x8E#8, .f3 .stxAbsolute),
    (0x84#8, .f2 .styZeroPage), (0x94#8, .f2 .styZeroPageX), (0x8C#8, .f3 .styAbsolute) ]

/-- The one-byte rows of R86 but INC A, and JMP. -/
def registerRows : List (Byte × Form) :=
  [ (0xAA#8, .f1 .tax), (0x8A#8, .f1 .txa), (0xA8#8, .f1 .tay), (0x98#8, .f1 .tya),
    (0xE8#8, .f1 .inx), (0xC8#8, .f1 .iny), (0xCA#8, .f1 .dex), (0x88#8, .f1 .dey),
    (0x18#8, .f1 .clc), (0x38#8, .f1 .sec), (0x58#8, .f1 .cli), (0x78#8, .f1 .sei),
    (0xD8#8, .f1 .cld), (0xF8#8, .f1 .sed), (0xB8#8, .f1 .clv),
    (0xEA#8, .f1 .nop), (0x4C#8, .f3 .jmpAbsolute) ]

/-- The four rows whose mode faults (R91). -/
def indirectRows : List (Byte × Form) :=
  [ (0xA1#8, .f2 .ldaIndirectX), (0xB1#8, .f2 .ldaIndirectY),
    (0x81#8, .f2 .staIndirectX), (0x91#8, .f2 .staIndirectY) ]

/-- The whole opcode map under the parameters `p` (R86, R91, R185). -/
def opcodeRows (p : Params) : List (Byte × Form) :=
  loadRows ++ storeRows ++ registerRows
    ++ (if p.indirectEntriesPresent then indirectRows else [])
    ++ [(p.opcIncA, .f1 .incA)]

/-- The row of an opcode byte, if it has one. -/
def formOf (p : Params) (op : Byte) : Option Form :=
  (opcodeRows p).lookup op

/-- A row's entry; it does not depend on the operand bytes. -/
def Form.entry : Form → Entry
  | .f1 i => i.entry
  | .f2 mk => (mk 0#8).entry
  | .f3 mk => (mk 0#16).entry

/-- `decode(opcode: u8) -> Option<Entry>` (R84). -/
def opcodeTable (p : Params) (op : Byte) : Option Entry :=
  (formOf p op).map Form.entry

/-- How many bytes follow the opcode byte (R80, R90); an unassigned opcode has no length, so none. -/
def operandCount (p : Params) (op : Byte) : Nat :=
  match opcodeTable p op with
  | none => 0
  | some e => e.nbytes - 1

/-! ## The decoder -/

/-- Why bytes are no instruction. -/
inductive Reject where
  /-- There is no byte at all. The step never meets it: a fetch reads at least the opcode. -/
  | noBytes
  /-- The opcode byte has no table entry (R88). -/
  | unassignedOpcode (op : Byte)
  /-- The byte list ends before the operand does. The step never meets it: the address space has no end. -/
  | missingOperand (op : Byte)
  deriving DecidableEq, Repr

/-- A 16-bit operand from its two bytes: "`low + high*256`" (20_memory.md R53). -/
def addrOfBytes (lo hi : Byte) : Addr :=
  hi ++ lo

/-- The instruction at the head of a byte list, with the bytes after it. -/
def decodeWith (p : Params) : List Byte → Except Reject (Instr × List Byte)
  | [] => .error .noBytes
  | op :: rest =>
    match formOf p op with
    | none => .error (.unassignedOpcode op)
    | some (.f1 i) => .ok (i, rest)
    | some (.f2 mk) =>
      match rest with
      | b1 :: more => .ok (mk b1, more)
      | [] => .error (.missingOperand op)
    | some (.f3 mk) =>
      match rest with
      | b1 :: b2 :: more => .ok (mk (addrOfBytes b1 b2), more)
      | [_] => .error (.missingOperand op)
      | [] => .error (.missingOperand op)

/-- The decoder of this model. -/
def decode (bytes : List Byte) : Except Reject (Instr × List Byte) :=
  decodeWith modelParams bytes

/-! ## Words of the opcode table -/

/-- The bytes of a table word, lowest address first (R81: "opcode in bits 7 to 0"), zero above `nbits`, as
many as the longest instruction has. -/
def tableBytes (nbits w : Nat) : List Byte :=
  let v := w % 2 ^ nbits
  [BitVec.ofNat 8 v, BitVec.ofNat 8 (v / 256), BitVec.ofNat 8 (v / 65536)]

/-- The instruction the decoder reads from a word numbered as spec/opcode_table.json numbers it. -/
def decodeTableWord (nbits w : Nat) : Option Instr :=
  match decode (tableBytes nbits w) with
  | .ok (i, _) => some i
  | .error _ => none

/-! ## The encoder -/

/-- The opcode byte of each instruction (R87). -/
def opcodeOf (p : Params) : Instr → Byte
  | .ldaImmediate _ => 0xA9#8
  | .ldaZeroPage _ => 0xA5#8
  | .ldaZeroPageX _ => 0xB5#8
  | .ldaAbsolute _ => 0xAD#8
  | .ldaAbsoluteX _ => 0xBD#8
  | .ldaAbsoluteY _ => 0xB9#8
  | .ldaIndirectX _ => 0xA1#8
  | .ldaIndirectY _ => 0xB1#8
  | .ldxImmediate _ => 0xA2#8
  | .ldxZeroPage _ => 0xA6#8
  | .ldxZeroPageY _ => 0xB6#8
  | .ldxAbsolute _ => 0xAE#8
  | .ldxAbsoluteY _ => 0xBE#8
  | .ldyImmediate _ => 0xA0#8
  | .ldyZeroPage _ => 0xA4#8
  | .ldyZeroPageX _ => 0xB4#8
  | .ldyAbsolute _ => 0xAC#8
  | .ldyAbsoluteX _ => 0xBC#8
  | .staZeroPage _ => 0x85#8
  | .staZeroPageX _ => 0x95#8
  | .staAbsolute _ => 0x8D#8
  | .staAbsoluteX _ => 0x9D#8
  | .staAbsoluteY _ => 0x99#8
  | .staIndirectX _ => 0x81#8
  | .staIndirectY _ => 0x91#8
  | .stxZeroPage _ => 0x86#8
  | .stxZeroPageY _ => 0x96#8
  | .stxAbsolute _ => 0x8E#8
  | .styZeroPage _ => 0x84#8
  | .styZeroPageX _ => 0x94#8
  | .styAbsolute _ => 0x8C#8
  | .tax => 0xAA#8
  | .txa => 0x8A#8
  | .tay => 0xA8#8
  | .tya => 0x98#8
  | .inx => 0xE8#8
  | .iny => 0xC8#8
  | .dex => 0xCA#8
  | .dey => 0x88#8
  | .incA => p.opcIncA
  | .clc => 0x18#8
  | .sec => 0x38#8
  | .cli => 0x58#8
  | .sei => 0x78#8
  | .cld => 0xD8#8
  | .sed => 0xF8#8
  | .clv => 0xB8#8
  | .nop => 0xEA#8
  | .jmpAbsolute _ => 0x4C#8

/-- The bytes of a 16-bit operand, low byte first (R53, R81). -/
def bytesOfAddr (a : Addr) : List Byte :=
  [a.extractLsb' 0 8, a.extractLsb' 8 8]

def MemOperand.bytes : MemOperand → List Byte
  | .zeroPage b1 | .zeroPageX b1 | .zeroPageY b1 => [b1]
  | .absolute base | .absoluteX base | .absoluteY base => bytesOfAddr base

/-- The operand bytes as they follow the opcode (R81). -/
def Operand.bytes : Operand → List Byte
  | .implied => []
  | .immediate b1 | .indirectX b1 | .indirectY b1 => [b1]
  | .memory m => m.bytes

def encodeWith (p : Params) (i : Instr) : List Byte :=
  opcodeOf p i :: i.operand.bytes

/-- The bytes of an instruction, lowest address first. -/
def encode (i : Instr) : List Byte :=
  encodeWith modelParams i

end Sys2Proof
end

