-- ==== Sys2Proof/Machine/ResetValues.lean ====
section
/-! DEFINITION. The reset value of each register and flag (spec 10_state.md R42), each in a definition of its own
that `State.reset`, construction and the reset operation share. -/

namespace Sys2Proof.Machine

def resetA : Byte := 0x00#8
def resetX : Byte := 0x00#8
def resetY : Byte := 0x00#8

/-- `SP_RESET` (R42, R43): free. -/
def resetSP : Byte := Config.spReset

/-- The entry address of `State.reset`, which takes no argument. `RESET_PC` is an argument of reset and of
construction, any 16-bit value (R8, R42); `resetTo` and `construct` take it.
DESIGN CHOICE 0x0000 (log entry 1), unsafe: no statement may rest on it. -/
def resetPC : Addr := 0x0000#16

def resetN : Bool := false
def resetV : Bool := false
def resetR : Bool := true
def resetB : Bool := false
def resetD : Bool := false
def resetI : Bool := false
def resetZ : Bool := false
def resetC : Bool := false

end Sys2Proof.Machine
end

