-- ==== Sys2Proof/Machine/State.lean ====
section
/-! DEFINITION. The machine's state, all of spec 10_state.md, as plain data; the reasons a step can stop; the
state after reset. -/

namespace Sys2Proof.Machine

/-- The eight status flags, each separate state (R27). -/
structure Flags where
  n : Bool
  v : Bool
  r : Bool
  b : Bool
  d : Bool
  i : Bool
  z : Bool
  c : Bool
  deriving DecidableEq, Repr

/-- The flags' names (R27). -/
inductive Flag where
  | n | v | r | b | d | i | z | c
  deriving DecidableEq, Repr

/-- The names of the three general registers (R20). -/
inductive Reg where
  | a | x | y
  deriving DecidableEq, Repr

/-- The 65,536 cells (R36) as address and byte pairs, addresses strictly rising, no cell listed that holds what an
unlisted cell reads as (`Memory.wf`, in Memory.lean). -/
abbrev Memory := List Host.Cell

structure State where
  /-- The accumulator (R20). -/
  a : Byte
  /-- Index register X (R20). -/
  x : Byte
  /-- Index register Y (R20). -/
  y : Byte
  /-- The stack pointer: no instruction reads or writes it (R26). -/
  sp : Byte
  /-- The program counter (R23). -/
  pc : Addr
  /-- The status flags (R27). -/
  flags : Flags
  /-- The memory (R36). -/
  mem : Memory
  deriving DecidableEq, Repr

/-- The two step faults (60_exceptions.md R210). A fault carries no state: "Effect on state: none" (R211, R212);
`tick` in Tick.lean keeps the state. -/
inductive Fault where
  /-- The byte at `PC` has no opcode-table entry (R211). Raised by `step`. Safe: the hardware reports the same
  and changes nothing. -/
  | unrecognizedOpcode (opcode : Byte) (addr : Addr)
  /-- The byte at `PC` has an entry with mode IndirectX or IndirectY (R212). Raised by the meanings of the four
  indirect rows. Safe: the hardware reports the same and changes nothing. -/
  | unimplementedMode (opcode : Byte) (addr : Addr)
  deriving DecidableEq, Repr

/-- Refusals: the spec has none (R227: "Refusal: nothing"). -/
inductive Refusal where
  /-- An instruction without a meaning. Raised by nothing in this model: every arm of `exec` has its meaning.
  Safe. -/
  | notModelled (mnemonic : String)
  deriving DecidableEq, Repr

/-- The flags after reset (R42). -/
def Flags.reset : Flags :=
  { n := resetN, v := resetV, r := resetR, b := resetB, d := resetD, i := resetI, z := resetZ,
    c := resetC }

/-- The machine right after system start and reset (R42, R63): memory all zero, so nothing listed. -/
def State.reset : State :=
  { a := resetA, x := resetX, y := resetY, sp := resetSP, pc := resetPC, flags := Flags.reset, mem := [] }

end Sys2Proof.Machine
end

