-- ==== Sys2Proof/Machine/Flags.lean ====
section
/-! DEFINITION. Every flag computation of the spec: one flag read or written by name, `SetNZ`
(40_step_and_addressing.md R119), and the serialised status byte `P` (10_state.md R32). -/

namespace Sys2Proof.Machine

def Flags.get : Flag → Flags → Bool
  | .n, f => f.n
  | .v, f => f.v
  | .r, f => f.r
  | .b, f => f.b
  | .d, f => f.d
  | .i, f => f.i
  | .z, f => f.z
  | .c, f => f.c

def Flags.set : Flag → Bool → Flags → Flags
  | .n, q, f => { f with n := q }
  | .v, q, f => { f with v := q }
  | .r, q, f => { f with r := q }
  | .b, q, f => { f with b := q }
  | .d, q, f => { f with d := q }
  | .i, q, f => { f with i := q }
  | .z, q, f => { f with z := q }
  | .c, q, f => { f with c := q }

/-- `SetNZ(v)`: "`Z <- 1 if v == 0 else 0`; `N <- v[7]`" (R119), so never both 1.
10_state.md R33 says otherwise, that all combinations of `N Z C D I` are reachable; R28 and R119 are followed and
N = Z = 1 is not. DESIGN CHOICE (log entry 15), unsafe. -/
def Flags.setNZ (v : Byte) (f : Flags) : Flags :=
  { f with z := decide (v = 0#8), n := v.getLsbD 7 }

/-- One bit of the status byte at its place. -/
def bitAt (place : Nat) (q : Bool) : Byte :=
  (BitVec.ofBool q).setWidth 8 <<< place

/-- `P = N<<7 | V<<6 | R<<5 | B<<4 | D<<3 | I<<2 | Z<<1 | C` (R32). -/
def Flags.toP (f : Flags) : Byte :=
  bitAt 7 f.n ||| bitAt 6 f.v ||| bitAt 5 f.r ||| bitAt 4 f.b
    ||| bitAt 3 f.d ||| bitAt 2 f.i ||| bitAt 1 f.z ||| bitAt 0 f.c

end Sys2Proof.Machine
end

