-- ==== Sys2Proof/Machine/Memory.lean ====
section
/-! DEFINITION. The memory as a list in one canonical form (spec 20_memory.md R50, R51): reading a cell, writing a
cell, and the predicate that says the form holds. Keys are addresses as natural numbers below 65,536. -/

namespace Sys2Proof.Machine

/-- What an unlisted cell holds: "initialized to zero unless pre-loaded" (R63). -/
def unlistedByte : Byte := 0x00#8

/-- The content of a cell. -/
def Memory.read : Memory → Nat → Byte
  | [], _ => unlistedByte
  | (k, w) :: rest, a => if k = a then w else Memory.read rest a

/-- Put a cell in front of a memory, unless it holds what an unlisted cell holds. -/
def consCell (a : Nat) (v : Byte) (m : Memory) : Memory :=
  if v = unlistedByte then m else (a, v) :: m

/-- The memory with one cell changed and no other (R51). -/
def Memory.write : Memory → Nat → Byte → Memory
  | [], a, v => consCell a v []
  | (k, w) :: rest, a, v =>
    if a < k then consCell a v ((k, w) :: rest)
    else if a = k then consCell a v rest
    else (k, w) :: Memory.write rest a v

/-- Every address is at least `lo`, they rise strictly, all are below 65,536, and no listed cell holds what an
unlisted one does. -/
def risingFrom : Nat → Memory → Bool
  | _, [] => true
  | lo, (k, w) :: rest => decide (lo ≤ k) && decide (k < 65536) && (w != unlistedByte) && risingFrom (k + 1) rest

/-- The canonical form: equal memories are equal lists. -/
def Memory.wf (m : Memory) : Bool :=
  risingFrom 0 m

end Sys2Proof.Machine
end

