-- ==== Sys2Proof/Machine/Ops.lean ====
section
/-! DEFINITION. The named operations over registers and memory that the meanings share, and the taking of a step
fault (spec 20_memory.md R51; 40_step_and_addressing.md R106, R119; 60_exceptions.md R218, R219). -/

namespace Sys2Proof.Machine

/-- What a meaning and a step answer. -/
abbrev StepOutcome := Host.Outcome State Fault Refusal

/-! ## Memory -/

/-- `MemRead(addr, 1)` (R51). -/
def readByte (addr : Addr) (s : State) : Byte :=
  s.mem.read addr.toNat

/-- `MemWrite(addr, 1, v)` (R51). -/
def writeByte (addr : Addr) (v : Byte) (s : State) : State :=
  { s with mem := s.mem.write addr.toNat v }

/-- Bytes stored at ascending addresses modulo 65,536, in order (00_scope.md R14). -/
def storeBytes : List Byte → Addr → State → State
  | [], _, s => s
  | b :: rest, addr, s => storeBytes rest (addr + 1#16) (writeByte addr b s)

/-- The bytes at `n` ascending addresses modulo 65,536 (R108). -/
def readBytes : Nat → Addr → State → List Byte
  | 0, _, _ => []
  | n + 1, addr, s => readByte addr s :: readBytes n (addr + 1#16) s

/-! ## Registers and flags -/

def getReg : Reg → State → Byte
  | .a, s => s.a
  | .x, s => s.x
  | .y, s => s.y

def setReg : Reg → Byte → State → State
  | .a, v, s => { s with a := v }
  | .x, v, s => { s with x := v }
  | .y, v, s => { s with y := v }

def getFlag (f : Flag) (s : State) : Bool :=
  s.flags.get f

/-- One flag assigned; the other seven keep their values (45_flag.md R190). -/
def setFlag (f : Flag) (q : Bool) (s : State) : State :=
  { s with flags := s.flags.set f q }

/-- `SetNZ(v)` on the state (R119). -/
def setNZ (v : Byte) (s : State) : State :=
  { s with flags := s.flags.setNZ v }

/-! ## The program counter -/

/-- `PC <- (a0 + nbytes) mod 65536` (R106). -/
def advancePC (nbytes : Nat) (s : State) : State :=
  { s with pc := s.pc + BitVec.ofNat 16 nbytes }

/-- `PC <- target` (R18, R205). -/
def setPC (target : Addr) (s : State) : State :=
  { s with pc := target }

/-! ## Taking a step fault -/

/-- Taking a step fault: it "saves nothing, pushes nothing, changes no mode and no mask, and transfers control
nowhere" (R218); the report is the whole effect. There is no return from it (R219). -/
def takeFault (f : Fault) : StepOutcome :=
  .fault f

/-- `raise UnimplementedMode(op, a0)` (R212). -/
def raiseUnimplementedMode (op : Byte) (s : State) : StepOutcome :=
  takeFault (.unimplementedMode op s.pc)

/-- `raise UnrecognizedOpcode(op, a0)` (R211). -/
def raiseUnrecognizedOpcode (op : Byte) (s : State) : StepOutcome :=
  takeFault (.unrecognizedOpcode op s.pc)

end Sys2Proof.Machine
end

