-- ==== Sys2Proof/Machine/Operands.lean ====
section
/-! DEFINITION. The addressing-mode resolver (spec 40_step_and_addressing.md R107 to R118): the effective address of
every operand form, and the value a load takes. Registers and memory are read, nothing is written. -/

namespace Sys2Proof.Machine

/-- `zext_16(b)` (00_scope.md R18). -/
def zext16 (b : Byte) : Addr :=
  b.setWidth 16

/-- `r.ea` of the modes that name a memory cell. Zero-page sums are reduced to 8 bits before they become an address
(R112, R113); absolute sums are reduced to 16 bits (R115, R116). -/
def effectiveAddress : MemOperand → State → Addr
  | .zeroPage b1, _ => zext16 b1
  | .zeroPageX b1, s => zext16 (b1 + s.x)
  | .zeroPageY b1, s => zext16 (b1 + s.y)
  | .absolute base, _ => base
  | .absoluteX base, s => base + zext16 s.x
  | .absoluteY base, s => base + zext16 s.y

/-- What the resolver answers (R107): no operand, an immediate value with the address it was read from (R110),
or an effective address. -/
inductive ResolvedOperand where
  | noOperand
  | immediateValue (ea : Addr) (value : Byte)
  | effective (ea : Addr)
  deriving DecidableEq, Repr

/-- `resolve(mode, pc)` (R107); `none` for the two tags the resolver accepts and fails on (R117). -/
def resolve : Operand → State → Option ResolvedOperand
  | .implied, _ => some .noOperand
  | .immediate b1, s => some (.immediateValue (s.pc + 1#16) b1)
  | .memory m, s => some (.effective (effectiveAddress m s))
  | .indirectX _, _ => none
  | .indirectY _, _ => none

/-- `r.value`, for the value-wanting caller (R118): the operand byte itself, or one data read at `r.ea`. -/
def sourceValue : Source → State → Byte
  | .immediate b1, _ => b1
  | .memory m, s => readByte (effectiveAddress m s) s

end Sys2Proof.Machine
end

