-- ==== Sys2Proof/Machine/Control.lean ====
section
/-! DEFINITION. No-op and unconditional jump (spec 46_nop.md R200; 47_jump.md R205 to R208). -/

namespace Sys2Proof.Machine

/-- R200: "no state change beyond normal PC advance". -/
def execNop (s : State) : StepOutcome :=
  .next (advancePC Mode.implied.nbytes s)

/-- R205: `PC` is the resolved effective address, and no advance follows it (R206). -/
def execJmpAbsolute (target : Addr) (s : State) : StepOutcome :=
  .next (setPC (effectiveAddress (.absolute target) s) s)

end Sys2Proof.Machine
end

