-- ==== Sys2Proof/Machine/FlagInstr.lean ====
section
/-! DEFINITION. The Flag set/clear family (spec 45_flag.md R190 to R197). -/

namespace Sys2Proof.Machine

/-- The family's common rule (R190): "set or clear exactly the named single flag"; `PC` advances by one byte. -/
def assignFlag (f : Flag) (q : Bool) (s : State) : State :=
  advancePC Mode.implied.nbytes (setFlag f q s)

/-- R191 -/
def execClc (s : State) : StepOutcome := .next (assignFlag .c false s)
/-- R192 -/
def execSec (s : State) : StepOutcome := .next (assignFlag .c true s)
/-- R193 -/
def execCli (s : State) : StepOutcome := .next (assignFlag .i false s)
/-- R194 -/
def execSei (s : State) : StepOutcome := .next (assignFlag .i true s)
/-- R195 -/
def execCld (s : State) : StepOutcome := .next (assignFlag .d false s)
/-- R196 -/
def execSed (s : State) : StepOutcome := .next (assignFlag .d true s)
/-- R197 -/
def execClv (s : State) : StepOutcome := .next (assignFlag .v false s)

end Sys2Proof.Machine
end

