-- ==== Sys2Proof/Machine/IncDec.lean ====
section
/-! DEFINITION. The Increment/Decrement family (spec 44_incdec.md R180 to R185). -/

namespace Sys2Proof.Machine

/-- The family's common rule (R180): `res <- (reg + d) mod 256`, with `d` the byte 1 or 255; `SetNZ` of the
result; `PC` advances by one byte. -/
def addToReg (d : Byte) (reg : Reg) (s : State) : State :=
  advancePC Mode.implied.nbytes (setNZ (getReg reg s + d) (setReg reg (getReg reg s + d) s))

/-- R181 -/
def execInx (s : State) : StepOutcome := .next (addToReg 1#8 .x s)
/-- R182 -/
def execIny (s : State) : StepOutcome := .next (addToReg 1#8 .y s)
/-- R183 -/
def execDex (s : State) : StepOutcome := .next (addToReg 255#8 .x s)
/-- R184 -/
def execDey (s : State) : StepOutcome := .next (addToReg 255#8 .y s)
/-- R185 -/
def execIncA (s : State) : StepOutcome := .next (addToReg 1#8 .a s)

end Sys2Proof.Machine
end

