-- ==== Sys2Proof/Machine/Load.lean ====
section
/-! DEFINITION. The Load family (spec 41_load.md R130 to R148). -/

namespace Sys2Proof.Machine

/-- The family's common rule (R130): the resolved value goes into `reg`, `SetNZ` follows, `PC` advances by the
mode's length. The effective address is fixed before the register changes (R100). -/
def loadReg (reg : Reg) (src : Source) (s : State) : State :=
  advancePC src.mode.nbytes (setNZ (sourceValue src s) (setReg reg (sourceValue src s) s))

/-- R131 -/
def execLdaImmediate (b1 : Byte) (s : State) : StepOutcome := .next (loadReg .a (.immediate b1) s)
/-- R132 -/
def execLdaZeroPage (b1 : Byte) (s : State) : StepOutcome := .next (loadReg .a (.memory (.zeroPage b1)) s)
/-- R133 -/
def execLdaZeroPageX (b1 : Byte) (s : State) : StepOutcome := .next (loadReg .a (.memory (.zeroPageX b1)) s)
/-- R134 -/
def execLdaAbsolute (base : Addr) (s : State) : StepOutcome := .next (loadReg .a (.memory (.absolute base)) s)
/-- R135 -/
def execLdaAbsoluteX (base : Addr) (s : State) : StepOutcome := .next (loadReg .a (.memory (.absoluteX base)) s)
/-- R136 -/
def execLdaAbsoluteY (base : Addr) (s : State) : StepOutcome := .next (loadReg .a (.memory (.absoluteY base)) s)
/-- R137: the operand byte is not used. -/
def execLdaIndirectX (_b1 : Byte) (s : State) : StepOutcome := raiseUnimplementedMode 0xA1#8 s
/-- R138: the operand byte is not used. -/
def execLdaIndirectY (_b1 : Byte) (s : State) : StepOutcome := raiseUnimplementedMode 0xB1#8 s

/-- R139 -/
def execLdxImmediate (b1 : Byte) (s : State) : StepOutcome := .next (loadReg .x (.immediate b1) s)
/-- R140 -/
def execLdxZeroPage (b1 : Byte) (s : State) : StepOutcome := .next (loadReg .x (.memory (.zeroPage b1)) s)
/-- R141 -/
def execLdxZeroPageY (b1 : Byte) (s : State) : StepOutcome := .next (loadReg .x (.memory (.zeroPageY b1)) s)
/-- R142 -/
def execLdxAbsolute (base : Addr) (s : State) : StepOutcome := .next (loadReg .x (.memory (.absolute base)) s)
/-- R143 -/
def execLdxAbsoluteY (base : Addr) (s : State) : StepOutcome := .next (loadReg .x (.memory (.absoluteY base)) s)

/-- R144 -/
def execLdyImmediate (b1 : Byte) (s : State) : StepOutcome := .next (loadReg .y (.immediate b1) s)
/-- R145 -/
def execLdyZeroPage (b1 : Byte) (s : State) : StepOutcome := .next (loadReg .y (.memory (.zeroPage b1)) s)
/-- R146 -/
def execLdyZeroPageX (b1 : Byte) (s : State) : StepOutcome := .next (loadReg .y (.memory (.zeroPageX b1)) s)
/-- R147 -/
def execLdyAbsolute (base : Addr) (s : State) : StepOutcome := .next (loadReg .y (.memory (.absolute base)) s)
/-- R148 -/
def execLdyAbsoluteX (base : Addr) (s : State) : StepOutcome := .next (loadReg .y (.memory (.absoluteX base)) s)

end Sys2Proof.Machine
end

