-- ==== Sys2Proof/Machine/Store.lean ====
section
/-! DEFINITION. The Store family (spec 42_store.md R150 to R163). -/

namespace Sys2Proof.Machine

/-- The family's common rule (R150): the register's value goes to the effective address, both as they are before
the step; no flag and no register changes; `PC` advances by the mode's length. -/
def storeReg (reg : Reg) (m : MemOperand) (s : State) : State :=
  advancePC m.mode.nbytes (writeByte (effectiveAddress m s) (getReg reg s) s)

/-- R151 -/
def execStaZeroPage (b1 : Byte) (s : State) : StepOutcome := .next (storeReg .a (.zeroPage b1) s)
/-- R152 -/
def execStaZeroPageX (b1 : Byte) (s : State) : StepOutcome := .next (storeReg .a (.zeroPageX b1) s)
/-- R153 -/
def execStaAbsolute (base : Addr) (s : State) : StepOutcome := .next (storeReg .a (.absolute base) s)
/-- R154 -/
def execStaAbsoluteX (base : Addr) (s : State) : StepOutcome := .next (storeReg .a (.absoluteX base) s)
/-- R155 -/
def execStaAbsoluteY (base : Addr) (s : State) : StepOutcome := .next (storeReg .a (.absoluteY base) s)
/-- R156: the operand byte is not used. -/
def execStaIndirectX (_b1 : Byte) (s : State) : StepOutcome := raiseUnimplementedMode 0x81#8 s
/-- R157: the operand byte is not used. -/
def execStaIndirectY (_b1 : Byte) (s : State) : StepOutcome := raiseUnimplementedMode 0x91#8 s

/-- R158 -/
def execStxZeroPage (b1 : Byte) (s : State) : StepOutcome := .next (storeReg .x (.zeroPage b1) s)
/-- R159 -/
def execStxZeroPageY (b1 : Byte) (s : State) : StepOutcome := .next (storeReg .x (.zeroPageY b1) s)
/-- R160 -/
def execStxAbsolute (base : Addr) (s : State) : StepOutcome := .next (storeReg .x (.absolute base) s)

/-- R161 -/
def execStyZeroPage (b1 : Byte) (s : State) : StepOutcome := .next (storeReg .y (.zeroPage b1) s)
/-- R162 -/
def execStyZeroPageX (b1 : Byte) (s : State) : StepOutcome := .next (storeReg .y (.zeroPageX b1) s)
/-- R163 -/
def execStyAbsolute (base : Addr) (s : State) : StepOutcome := .next (storeReg .y (.absolute base) s)

end Sys2Proof.Machine
end

