-- ==== Sys2Proof/Machine/Transfer.lean ====
section
/-! DEFINITION. The Transfer family (spec 43_transfer.md R170 to R174). -/

namespace Sys2Proof.Machine

/-- The family's common rule (R170) under the switch `TRANSFER_SETS_NZ`: the source is copied; with the switch
on, `SetNZ` of the copied value follows; `PC` advances by one byte. -/
def transferReg (setsNZ : Bool) (src dst : Reg) (s : State) : State :=
  advancePC Mode.implied.nbytes
    (if setsNZ then setNZ (getReg src s) (setReg dst (getReg src s) s) else setReg dst (getReg src s) s)

/-- R171 -/
def execTax (s : State) : StepOutcome := .next (transferReg modelParams.transferSetsNZ .a .x s)
/-- R172 -/
def execTxa (s : State) : StepOutcome := .next (transferReg modelParams.transferSetsNZ .x .a s)
/-- R173 -/
def execTay (s : State) : StepOutcome := .next (transferReg modelParams.transferSetsNZ .a .y s)
/-- R174 -/
def execTya (s : State) : StepOutcome := .next (transferReg modelParams.transferSetsNZ .y .a s)

end Sys2Proof.Machine
end

