-- ==== Sys2Proof/Machine/Dispatch.lean ====
section
/-! DEFINITION. The one dispatch from instructions to their meanings (spec 40_step_and_addressing.md R102, R103). -/

namespace Sys2Proof.Machine

/-- `Execute(e.op, r)` with the PC advance of the entry (R100, R103, R106). -/
def exec (i : Instr) (s : State) : Host.Outcome State Fault Refusal :=
  match i with
  | .ldaImmediate b1 => Sys2Proof.Machine.execLdaImmediate b1 s
  | .ldaZeroPage b1 => Sys2Proof.Machine.execLdaZeroPage b1 s
  | .ldaZeroPageX b1 => Sys2Proof.Machine.execLdaZeroPageX b1 s
  | .ldaAbsolute base => Sys2Proof.Machine.execLdaAbsolute base s
  | .ldaAbsoluteX base => Sys2Proof.Machine.execLdaAbsoluteX base s
  | .ldaAbsoluteY base => Sys2Proof.Machine.execLdaAbsoluteY base s
  | .ldaIndirectX b1 => Sys2Proof.Machine.execLdaIndirectX b1 s
  | .ldaIndirectY b1 => Sys2Proof.Machine.execLdaIndirectY b1 s
  | .ldxImmediate b1 => Sys2Proof.Machine.execLdxImmediate b1 s
  | .ldxZeroPage b1 => Sys2Proof.Machine.execLdxZeroPage b1 s
  | .ldxZeroPageY b1 => Sys2Proof.Machine.execLdxZeroPageY b1 s
  | .ldxAbsolute base => Sys2Proof.Machine.execLdxAbsolute base s
  | .ldxAbsoluteY base => Sys2Proof.Machine.execLdxAbsoluteY base s
  | .ldyImmediate b1 => Sys2Proof.Machine.execLdyImmediate b1 s
  | .ldyZeroPage b1 => Sys2Proof.Machine.execLdyZeroPage b1 s
  | .ldyZeroPageX b1 => Sys2Proof.Machine.execLdyZeroPageX b1 s
  | .ldyAbsolute base => Sys2Proof.Machine.execLdyAbsolute base s
  | .ldyAbsoluteX base => Sys2Proof.Machine.execLdyAbsoluteX base s
  | .staZeroPage b1 => Sys2Proof.Machine.execStaZeroPage b1 s
  | .staZeroPageX b1 => Sys2Proof.Machine.execStaZeroPageX b1 s
  | .staAbsolute base => Sys2Proof.Machine.execStaAbsolute base s
  | .staAbsoluteX base => Sys2Proof.Machine.execStaAbsoluteX base s
  | .staAbsoluteY base => Sys2Proof.Machine.execStaAbsoluteY base s
  | .staIndirectX b1 => Sys2Proof.Machine.execStaIndirectX b1 s
  | .staIndirectY b1 => Sys2Proof.Machine.execStaIndirectY b1 s
  | .stxZeroPage b1 => Sys2Proof.Machine.execStxZeroPage b1 s
  | .stxZeroPageY b1 => Sys2Proof.Machine.execStxZeroPageY b1 s
  | .stxAbsolute base => Sys2Proof.Machine.execStxAbsolute base s
  | .styZeroPage b1 => Sys2Proof.Machine.execStyZeroPage b1 s
  | .styZeroPageX b1 => Sys2Proof.Machine.execStyZeroPageX b1 s
  | .styAbsolute base => Sys2Proof.Machine.execStyAbsolute base s
  | .tax => Sys2Proof.Machine.execTax s
  | .txa => Sys2Proof.Machine.execTxa s
  | .tay => Sys2Proof.Machine.execTay s
  | .tya => Sys2Proof.Machine.execTya s
  | .inx => Sys2Proof.Machine.execInx s
  | .iny => Sys2Proof.Machine.execIny s
  | .dex => Sys2Proof.Machine.execDex s
  | .dey => Sys2Proof.Machine.execDey s
  | .incA => Sys2Proof.Machine.execIncA s
  | .clc => Sys2Proof.Machine.execClc s
  | .sec => Sys2Proof.Machine.execSec s
  | .cli => Sys2Proof.Machine.execCli s
  | .sei => Sys2Proof.Machine.execSei s
  | .cld => Sys2Proof.Machine.execCld s
  | .sed => Sys2Proof.Machine.execSed s
  | .clv => Sys2Proof.Machine.execClv s
  | .nop => Sys2Proof.Machine.execNop s
  | .jmpAbsolute target => Sys2Proof.Machine.execJmpAbsolute target s

end Sys2Proof.Machine
end

