-- ==== Sys2Proof/Machine/Fetch.lean ====
section
/-! DEFINITION. Instruction fetch (spec 40_step_and_addressing.md R101, R108) and the placing of a word where it
will be fetched. -/

namespace Sys2Proof.Machine

/-- The instruction's bytes: the opcode at `PC`, then as many operand bytes as its entry has, at ascending
addresses modulo 65,536; an unassigned opcode alone (R101, R108).
The byte of an indirect-mode instruction becomes part of the term and is never used (log entry 6). -/
def fetchBytes (s : State) : List Byte :=
  readByte s.pc s :: readBytes (operandCount modelParams (readByte s.pc s)) (s.pc + 1#16) s

/-- A table word's bytes at `PC`, as the hardware stores them. -/
def placeFetchWord (nbits w : Nat) (s : State) : State :=
  storeBytes (tableBytes nbits w) s.pc s

end Sys2Proof.Machine
end

