-- ==== Sys2Proof/Machine/Step.lean ====
section
/-! DEFINITION. One step of the machine (spec 40_step_and_addressing.md R100), and where it fetches from. -/

namespace Sys2Proof.Machine

/-- One `tick` (R100): fetch at `PC`, decode, execute. -/
def step (s : State) : Host.Outcome State Fault Refusal :=
  match decode (fetchBytes s) with
  | .ok (i, _) => exec i s
  | .error _ => raiseUnrecognizedOpcode (readByte s.pc s) s

/-- The state with a table word stored at `PC`, so that the next step fetches and runs it; it stands for the
loader of 00_scope.md R14 (log entry 1). -/
def State.withFetchWord (s : State) (nbits w : Nat) : State :=
  placeFetchWord nbits w s

end Sys2Proof.Machine
end

