-- ==== Sys2Proof/Machine/Bus.lean ====
section
/-! DEFINITION. The memory port as a step uses it (spec 00_scope.md R12; 20_memory.md R58, R59): the exact accesses
of one step, in order. A view of the step, not state: no program can observe it (R58). -/

namespace Sys2Proof.Machine

/-- One access on the memory port: `mem_addr`, and with `mem_we` set also `mem_wdata` (R12). Every access moves
one byte (R52). -/
inductive Access where
  | read (addr : Addr)
  | write (addr : Addr) (value : Byte)
  deriving DecidableEq, Repr

/-- What an instruction does at its effective address (R118): loads read it, stores write a register to it, all
others leave it alone. -/
inductive DataUse where
  | reads
  | writes (reg : Reg)
  | untouched
  deriving DecidableEq, Repr

def dataUse : Mnemonic → DataUse
  | .lda | .ldx | .ldy => .reads
  | .sta => .writes .a
  | .stx => .writes .x
  | .sty => .writes .y
  | .tax | .txa | .tay | .tya | .inx | .iny | .dex | .dey | .incA
  | .clc | .sec | .cli | .sei | .cld | .sed | .clv | .nop | .jmp => .untouched

/-- The one data access, if any (R58). -/
def dataAccess (use : DataUse) (ea : Addr) (s : State) : List Access :=
  match use with
  | .reads => [.read ea]
  | .writes reg => [.write ea (getReg reg s)]
  | .untouched => []

/-- The reads of `n` operand bytes at ascending addresses (R59, R108). -/
def operandReads : Nat → Addr → List Access
  | 0, _ => []
  | n + 1, addr => .read addr :: operandReads n (addr + 1#16)

/-- The accesses after the opcode fetch (R58, R59): none for Implied and for the two indirect modes, whose operand
byte is not read (R109, R117). -/
def accessesAfterOpcode (i : Instr) (s : State) : List Access :=
  match resolve i.operand s with
  | none => []
  | some .noOperand => []
  | some (.immediateValue ea _) => [.read ea]
  | some (.effective ea) =>
    operandReads (i.operand.mode.nbytes - 1) (s.pc + 1#16) ++ dataAccess (dataUse i.mnemonic) ea s

/-- The accesses of the step that `s` is about to take, in order (R58, R59). -/
def busTrace (s : State) : List Access :=
  .read s.pc ::
    match decode (fetchBytes s) with
    | .ok (i, _) => accessesAfterOpcode i s
    | .error _ => []

/-- What the writes among some accesses leave of a memory. -/
def applyWrites : List Access → Memory → Memory
  | [], m => m
  | .read _ :: rest, m => applyWrites rest m
  | .write addr v :: rest, m => applyWrites rest (m.write addr.toNat v)

end Sys2Proof.Machine
end

