-- ==== Sys2Proof/Machine/Tick.lean ====
section
/-! DEFINITION. The step as its caller sees it (spec 00_scope.md R10; 60_exceptions.md R210 to R214): the result
with its code and payload, and the state after it, which a step fault leaves as it was. -/

namespace Sys2Proof.Machine

/-- `StepResult` (R210). `ok` has no payload: the payload outputs "have no defined value when the code is 0". -/
inductive StepResult where
  | ok
  | unrecognizedOpcode (opcode : Byte) (addr : Addr)
  | unimplementedMode (opcode : Byte) (addr : Addr)
  deriving DecidableEq, Repr

/-- `step_status` (R210). -/
def StepResult.code : StepResult → BitVec 2
  | .ok => 0#2
  | .unrecognizedOpcode _ _ => 1#2
  | .unimplementedMode _ _ => 2#2

/-- `fault_opcode` and `fault_addr` (R210). -/
def StepResult.payload : StepResult → Option (Byte × Addr)
  | .ok => none
  | .unrecognizedOpcode op addr => some (op, addr)
  | .unimplementedMode op addr => some (op, addr)

/-- The result of an outcome; `none` for a refusal, which no step of this model gives (R227). -/
def resultOf : StepOutcome → Option StepResult
  | .next _ => some .ok
  | .fault (.unrecognizedOpcode op addr) => some (.unrecognizedOpcode op addr)
  | .fault (.unimplementedMode op addr) => some (.unimplementedMode op addr)
  | .refused _ => none

/-- The state after an outcome: a step fault changes nothing (R211, R212). -/
def stateAfter (s : State) : StepOutcome → State
  | .next t => t
  | .fault _ => s
  | .refused _ => s

/-- The state after one `tick`. -/
def tick (s : State) : State :=
  stateAfter s (step s)

/-- The result of one `tick`. -/
def tickResult (s : State) : Option StepResult :=
  resultOf (step s)

/-- The state after `k` ticks, the driver doing nothing else (R213, R254). -/
def ticks : Nat → State → State
  | 0, s => s
  | k + 1, s => ticks k (tick s)

end Sys2Proof.Machine
end

