-- ==== Sys2Proof/Machine/HostInterface.lean ====
section
/-! DEFINITION. What the outside does to the core (spec 00_scope.md R9 to R16; 70_reset_and_hazards.md R240 to R254):
construction, reset, image load, introspection, and the operations the host issues during a run with what each
answers. -/

namespace Sys2Proof.Machine

/-- `reset(pc)` (R241): every register and flag at its reset value, `PC` at the argument, memory untouched
(R242). -/
def resetTo (pc : Addr) (s : State) : State :=
  { a := resetA, x := resetX, y := resetY, sp := resetSP, pc := pc, flags := Flags.reset, mem := s.mem }

/-- `new(memory, initial_pc)` (R9, R240). -/
def construct (mem : Memory) (initialPC : Addr) : State :=
  { a := resetA, x := resetX, y := resetY, sp := resetSP, pc := initialPC, flags := Flags.reset, mem := mem }

/-- A program image in memory, byte `i` at `(base + i) mod 65536` (R14). -/
def loadImage (image : List Byte) (base : Addr) (s : State) : State :=
  storeBytes image base s

/-- The introspection outputs (R13), with `dbg_p` in the layout of 10_state.md R32. -/
structure Introspection where
  dbgA : Byte
  dbgX : Byte
  dbgY : Byte
  dbgSP : Byte
  dbgPC : Addr
  dbgP : Byte
  deriving DecidableEq, Repr

/-- What the outputs show between two operations (R13). -/
def introspect (s : State) : Introspection :=
  { dbgA := s.a, dbgX := s.x, dbgY := s.y, dbgSP := s.sp, dbgPC := s.pc, dbgP := s.flags.toP }

/-- What the host may do at a step boundary (R16, R243, R252): the driver ticks or resets; a device, or anyone
else, reads a cell (20_memory.md R66; 00_scope.md R14); anyone reads the introspection outputs (R13).
There is no PC write (R15) and no memory write during a run (20_memory.md R67; log entry 10). -/
inductive HostOp where
  | tick
  | reset (pc : Addr)
  | readMemory (addr : Addr)
  | inspect
  deriving DecidableEq, Repr

/-- What an operation answers. -/
inductive HostReport where
  /-- The step's result (R10, R210). -/
  | stepped (result : Option StepResult)
  /-- A reset answers nothing (R11). -/
  | resetDone
  /-- The content of the cell (R14, R51). -/
  | byte (value : Byte)
  /-- The introspection outputs (R13). -/
  | outputs (seen : Introspection)
  deriving DecidableEq, Repr

/-- The state after one operation: reads change nothing (20_memory.md R56; R13). -/
def applyHostOp : HostOp → State → State
  | .tick, s => tick s
  | .reset pc, s => resetTo pc s
  | .readMemory _, s => s
  | .inspect, s => s

/-- What one operation answers at a step boundary: a read sees the stores of every completed step (R66). -/
def hostReport : HostOp → State → HostReport
  | .tick, s => .stepped (tickResult s)
  | .reset _, _ => .resetDone
  | .readMemory addr, s => .byte (readByte addr s)
  | .inspect, s => .outputs (introspect s)

/-- The state after the host's operations, in order. -/
def runHostOps : List HostOp → State → State
  | [], s => s
  | op :: rest, s => runHostOps rest (applyHostOp op s)

/-- What the host's operations answer, in order. -/
def hostReports : List HostOp → State → List HostReport
  | [], _ => []
  | op :: rest, s => hostReport op s :: hostReports rest (applyHostOp op s)

/-- The operation is one of the driver's two, which can change the core. -/
def HostOp.drives : HostOp → Bool
  | .tick => true
  | .reset _ => true
  | .readMemory _ => false
  | .inspect => false

/-- A system just started (R250): memory of zeros, the image loaded, the core constructed at the entry address. -/
def systemStart (image : List Byte) (base entry : Addr) : State :=
  construct (loadImage image base State.reset).mem entry

end Sys2Proof.Machine
end

