-- ==== Sys2Proof/Safety.lean ====
section
/-! DEFINITION. The terms claims are made in: the invariant of a state, what each instruction may read and write
(the tables of spec 10_state.md R21 and R28), a run without fault, and the end of a run (R254). -/

namespace Sys2Proof.Machine

/-- What holds of every state a system reaches: the memory's form, and the three flags nothing can move (R29,
R30). -/
structure Invariant (s : State) : Prop where
  memWf : s.mem.wf = true
  reserved : s.flags.r = true
  breakClear : s.flags.b = false
  overflowClear : s.flags.v = false

/-- The index register of a mode (R112, R113, R115, R116). -/
def indexOf : Mode → List Reg
  | .zeroPageX | .absoluteX => [.x]
  | .zeroPageY | .absoluteY => [.y]
  | .implied | .immediate | .zeroPage | .absolute | .indirectX | .indirectY => []

/-- The registers whose value an instruction's own semantics uses, the index apart (R21, column "read by"). -/
def operandRegs : Mnemonic → List Reg
  | .sta | .tax | .tay | .incA => [.a]
  | .stx | .txa | .inx | .dex => [.x]
  | .sty | .tya | .iny | .dey => [.y]
  | .lda | .ldx | .ldy | .clc | .sec | .cli | .sei | .cld | .sed | .clv | .nop | .jmp => []

/-- The registers an instruction reads (R21). -/
def regsRead (i : Instr) : List Reg :=
  operandRegs i.mnemonic ++ indexOf i.operand.mode

/-- The registers an instruction assigns (R21, column "written by"). -/
def regsWritten : Mnemonic → List Reg
  | .lda | .txa | .tya | .incA => [.a]
  | .ldx | .tax | .inx | .dex => [.x]
  | .ldy | .tay | .iny | .dey => [.y]
  | .sta | .stx | .sty | .clc | .sec | .cli | .sei | .cld | .sed | .clv | .nop | .jmp => []

/-- The flags an instruction assigns (R28, column "set or cleared by"). -/
def flagsWritten : Mnemonic → List Flag
  | .lda | .ldx | .ldy | .inx | .iny | .dex | .dey | .incA => [.z, .n]
  | .clc | .sec => [.c]
  | .cli | .sei => [.i]
  | .cld | .sed => [.d]
  | .clv => [.v]
  | .sta | .stx | .sty | .tax | .txa | .tay | .tya | .nop | .jmp => []

/-- No tick among the first `k` reports a fault. -/
def faultFree (k : Nat) (s : State) : Prop :=
  ∀ j, j < k → tickResult (ticks j s) = some .ok

/-- The stopping condition a claim chooses (R254; decision D24). -/
inductive StopCondition where
  | afterTicks (n : Nat)
  | pcAt (addr : Addr)
  | firstFault
  deriving DecidableEq, Repr

/-- The run from `s` ends after `k` ticks (R254): after exactly `n`; at the first step boundary where `PC` is the
address; at the first tick that returns a fault. -/
def runEnds (c : StopCondition) (s : State) (k : Nat) : Prop :=
  match c with
  | .afterTicks n => k = n
  | .pcAt addr => (ticks k s).pc = addr ∧ ∀ j, j < k → (ticks j s).pc ≠ addr
  | .firstFault => ∃ n, k = n + 1 ∧ faultFree n s ∧ tickResult (ticks n s) ≠ some .ok

end Sys2Proof.Machine
end

