-- ==== Sys2Proof/WellFormed.lean ====
section
/-! DEFINITION. Which parameter values are legal and which instructions exist under them. Every operand value is
legal (spec 30_encoding.md R82), so the checks are about the parameters. -/

namespace Sys2Proof

/-- The 48 assigned bytes other than INC A's (R86, R185). -/
def otherAssignedBytes : List Byte :=
  (loadRows ++ storeRows ++ registerRows ++ indirectRows).map Prod.fst

/-- "A model may take another value for `OPC_INC_A` provided it is not one of the other 48 assigned bytes"
(R185). -/
def Params.legal (p : Params) : Bool :=
  !(otherAssignedBytes.contains p.opcIncA)

/-- The instruction exists under `p`: the parameters are legal (R185), and an instruction with an indirect mode
needs its table entry (R91). -/
def Instr.wellFormed (p : Params) (i : Instr) : Bool :=
  p.legal && (p.indirectEntriesPresent || !i.operand.mode.unimplemented)

end Sys2Proof
end

