-- ==== Sys2Proof/Certificates/Slice0/Obligations.lean ====
section
/-! DEFINITION. The statements for the provers. The words they are written in come first: the spec's own integer
arithmetic for addresses, flags and the program counter, so that a statement does not repeat the machine's
definitions. -/

namespace Sys2Proof.Claims

open Sys2Proof.Machine

/-- The cell at an integer address, as the spec writes `Mem[k]`. -/
def cell (k : Nat) (s : State) : Byte :=
  readByte (BitVec.ofNat 16 k) s

/-- The opcode byte the next step fetches (R101). -/
def opcodeAt (s : State) : Byte :=
  readByte s.pc s

/-- `b1 = MemRead((a0+1) mod 65536, 1)` (R108). -/
def operand1 (s : State) : Byte :=
  cell ((s.pc.toNat + 1) % 65536) s

/-- `b2 = MemRead((a0+2) mod 65536, 1)` (R108). -/
def operand2 (s : State) : Byte :=
  cell ((s.pc.toNat + 2) % 65536) s

/-- `b1 + 256*b2` (R114). -/
def operand16 (s : State) : Addr :=
  BitVec.ofNat 16 ((operand1 s).toNat + 256 * (operand2 s).toNat)

/-- `(a0 + n) mod 65536` (R106). -/
def pcPlus (n : Nat) (s : State) : Addr :=
  BitVec.ofNat 16 ((s.pc.toNat + n) % 65536)

/-- `Z <- (v == 0)`, `N <- (v & 0x80) != 0`, the other six flags as they were (R119). -/
def withNZ (v : Byte) (f : Flags) : Flags :=
  { f with z := decide (v.toNat = 0), n := decide (128 ≤ v.toNat) }

/-- The reads of the `n` instruction bytes (R58, R59). -/
def fetches (n : Nat) (s : State) : List Access :=
  (List.range n).map (fun k => .read (BitVec.ofNat 16 ((s.pc.toNat + k) % 65536)))

/-- The effective address in the spec's integer arithmetic (R111 to R116). -/
def eaOf : MemOperand → State → Nat
  | .zeroPage b1, _ => b1.toNat
  | .zeroPageX b1, s => (b1.toNat + s.x.toNat) % 256
  | .zeroPageY b1, s => (b1.toNat + s.y.toNat) % 256
  | .absolute base, _ => base.toNat
  | .absoluteX base, s => (base.toNat + s.x.toNat) % 65536
  | .absoluteY base, s => (base.toNat + s.y.toNat) % 65536

/-- The byte a load of this operand takes (R118). -/
def memValue (m : MemOperand) (s : State) : Byte :=
  cell (eaOf m s) s

/-- A store of `v` at the operand's effective address (the function the meanings use), `n` bytes long: it
completes, that cell holds `v`, every other cell, every register and every flag is as before (R150). -/
def Stores (m : MemOperand) (v : Byte) (n : Nat) (s : State) (o : StepOutcome) : Prop :=
  ∃ t, o = .next t
    ∧ (effectiveAddress m s).toNat = eaOf m s
    ∧ (s.mem.wf = true → readByte (effectiveAddress m s) t = v)
    ∧ (∀ k, k ≠ effectiveAddress m s → readByte k t = readByte k s)
    ∧ t.a = s.a ∧ t.x = s.x ∧ t.y = s.y ∧ t.sp = s.sp ∧ t.flags = s.flags ∧ t.pc = pcPlus n s

/-- The bytes of a step on the instruction with opcode byte `op`: the step is the execution of `i`, and the port
sees the `n` instruction bytes and then `data` (R58). -/
def Encodes (op : Byte) (i : Instr) (n : Nat) (data : List Access) (s : State) : Prop :=
  opcodeAt s = op → step s = exec i s ∧ busTrace s = fetches n s ++ data

/-- The read a load makes at its effective address. -/
def readAt (m : MemOperand) (s : State) : List Access :=
  [.read (BitVec.ofNat 16 (eaOf m s))]

/-- The write a store makes at its effective address. -/
def writeAt (m : MemOperand) (v : Byte) (s : State) : List Access :=
  [.write (BitVec.ofNat 16 (eaOf m s)) v]

/-- An outcome with its next state changed. -/
def mapNext (f : State → State) : StepOutcome → StepOutcome
  | .next t => .next (f t)
  | .fault r => .fault r
  | .refused r => .refused r

/-- `k` executions of one instruction, in a row. -/
def execTimes : Nat → Instr → State → StepOutcome
  | 0, _, s => .next s
  | k + 1, i, s =>
    match exec i s with
    | .next t => execTimes k i t
    | .fault r => .fault r
    | .refused r => .refused r

/-- The 49 assigned opcode bytes, in the order of the spec's table (R86). -/
def assignedBytes : List Nat :=
  [0x18, 0x1A, 0x38, 0x4C, 0x58, 0x78, 0x81, 0x84, 0x85, 0x86, 0x88, 0x8A, 0x8C, 0x8D, 0x8E, 0x91]
  ++ [0x94, 0x95, 0x96, 0x98, 0x99, 0x9D, 0xA0, 0xA1, 0xA2, 0xA4, 0xA5, 0xA6, 0xA8, 0xA9, 0xAA, 0xAC]
  ++ [0xAD, 0xAE, 0xB1, 0xB4, 0xB5, 0xB6, 0xB8, 0xB9, 0xBC, 0xBD, 0xBE, 0xC8, 0xCA, 0xD8, 0xE8, 0xEA, 0xF8]

/-- `nbytes` by mode, as R83 words it. -/
def lengthOf : Mode → Nat
  | .implied => 1
  | .immediate | .zeroPage | .zeroPageX | .zeroPageY | .indirectX | .indirectY => 2
  | .absolute | .absoluteX | .absoluteY => 3

end Sys2Proof.Claims

open Sys2Proof Sys2Proof.Machine Sys2Proof.Claims

/-! ## Reset and construction -/

/-- R241, R242 (decisions D4, D15, D16; `SP_RESET` is the open constant of log entry 2): reset puts every register
and flag at its value, `PC` at the argument, leaves every cell of memory as it was, equals construction on the same
memory, and depends on nothing before it but the memory. -/
def Obligations.ResetSetsRegistersKeepsMemory : Prop :=
  ∀ (pc : Addr) (s : State),
    (resetTo pc s).a = 0#8 ∧ (resetTo pc s).x = 0#8 ∧ (resetTo pc s).y = 0#8
    ∧ (resetTo pc s).flags
        = { n := false, v := false, r := true, b := false, d := false, i := false, z := false, c := false }
    ∧ (resetTo pc s).sp = Config.spReset ∧ (resetTo pc s).pc = pc
    ∧ (∀ k, readByte k (resetTo pc s) = readByte k s)
    ∧ resetTo pc s = construct s.mem pc
    ∧ (∀ s', s'.mem = s.mem → resetTo pc s' = resetTo pc s)

/-- R240: construction puts every register and flag at its reset value with `PC = initial_pc`, which is the state
a reset leaves, and does not touch memory. That the registers other than `PC` start so is the spec's decision D3. -/
def Obligations.ConstructionIsTheResetState : Prop :=
  ∀ (mem : Memory) (pc : Addr),
    construct mem pc = {
        a := 0#8, x := 0#8, y := 0#8, sp := Config.spReset, pc := pc, mem := mem,
        flags := { n := false, v := false, r := true, b := false, d := false, i := false, z := false, c := false } }
    ∧ (∀ s, s.mem = mem → construct mem pc = resetTo pc s)
    ∧ (construct mem pc).flags.toP = 0x20#8

/-- R63: at system start every cell reads zero, and a core over it reports opcode 0x00 at its `PC`. -/
def Obligations.UnloadedMemoryIsZeroAndFaults : Prop :=
  (∀ k pc, readByte k (construct State.reset.mem pc) = 0#8)
  ∧ (∀ s : State, readByte s.pc s = 0#8 → step s = .fault (.unrecognizedOpcode 0x00#8 s.pc))

/-- R14: byte `i` of an image goes to `(base + i) mod 65536`; no other cell and no register changes. -/
def Obligations.ImageIsLoadedByteByByte : Prop :=
  ∀ (image : List Byte) (base : Addr) (s : State), s.mem.wf = true → image.length ≤ 65536 →
    (∀ k (h : k < image.length), cell ((base.toNat + k) % 65536) (loadImage image base s) = image[k])
    ∧ (∀ j : Nat, j < 65536 → (∀ k, k < image.length → j ≠ (base.toNat + k) % 65536) →
        cell j (loadImage image base s) = cell j s)
    ∧ (loadImage image base s = { s with mem := (loadImage image base s).mem })

/-! ## Memory -/

/-- R51: a write makes its cell hold the value and changes no other cell, and nothing else. That the memory is then
in canonical form again is the model's representation (log entry 4, DESIGN CHOICE). -/
def Obligations.WriteChangesOneCell : Prop :=
  ∀ (s : State) (k j : Addr) (v : Byte), s.mem.wf = true →
    readByte k (writeByte k v s) = v
    ∧ (j ≠ k → readByte j (writeByte k v s) = readByte j s)
    ∧ writeByte k v s = { s with mem := (writeByte k v s).mem }
    ∧ (writeByte k v s).mem.wf = true

/-- The model's memory form is canonical (10_state.md R36): memories that hold the same are the same list. -/
def Obligations.EqualContentsAreEqualMemories : Prop :=
  ∀ s t : State, s.mem.wf = true → t.mem.wf = true → (∀ k, readByte k s = readByte k t) → s.mem = t.mem

/-! ## Encoding -/

/-- Words written out from the spec's encodings, one or more of each family (R86). -/
def Obligations.SpecWordsDecode : Prop :=
  decode [0xA9#8, 0x01#8] = .ok (.ldaImmediate 0x01#8, [])
  ∧ decode [0xAD#8, 0x34#8, 0x12#8] = .ok (.ldaAbsolute 0x1234#16, [])
  ∧ decode [0xB6#8, 0xF0#8, 0xE8#8] = .ok (.ldxZeroPageY 0xF0#8, [0xE8#8])
  ∧ decode [0x9D#8, 0xF0#8, 0x02#8] = .ok (.staAbsoluteX 0x02F0#16, [])
  ∧ decode [0x98#8] = .ok (.tya, [])
  ∧ decode [0x1A#8] = .ok (.incA, [])
  ∧ decode [0xF8#8] = .ok (.sed, [])
  ∧ decode [0xEA#8, 0xE8#8] = .ok (.nop, [0xE8#8])
  ∧ decode [0x4C#8, 0x00#8, 0x04#8] = .ok (.jmpAbsolute 0x0400#16, [])
  ∧ decode [0xA1#8, 0x10#8] = .ok (.ldaIndirectX 0x10#8, [])
  ∧ decode [0xFF#8, 0x00#8] = .error (.unassignedOpcode 0xFF#8)

/-- Decoding an encoded well-formed instruction gives it back with the bytes after it, under all legal
parameters. -/
def Obligations.DecodeAfterEncode : Prop :=
  ∀ (p : Params) (i : Instr) (rest : List Byte), i.wellFormed p = true →
    decodeWith p (encodeWith p i ++ rest) = .ok (i, rest)

/-- Every byte list that decodes is the encoding of what it decodes to, followed by the rest; and what it decodes
to is well-formed. -/
def Obligations.EncodeAfterDecode : Prop :=
  ∀ (p : Params) (bytes rest : List Byte) (i : Instr), p.legal = true →
    decodeWith p bytes = .ok (i, rest) → bytes = encodeWith p i ++ rest ∧ i.wellFormed p = true

/-- R83, R84, R85: the table is a function of the opcode byte; each entry's length follows from its mode, and
`advance` is false for JMP alone. -/
def Obligations.EntryLengthFollowsMode : Prop :=
  ∀ (p : Params) (op : Byte) (e : Entry), opcodeTable p op = some e →
    e.nbytes = lengthOf e.mode ∧ (e.advance = false ↔ e.op = .jmp)

/-- R88, R211: the bytes outside the listed 49 are unassigned, 207 of them, and a step on one reports
UnrecognizedOpcode with the byte and its address and changes nothing. -/
def Obligations.UnassignedBytesFault : Prop :=
  assignedBytes.length = 49 ∧ assignedBytes.Nodup
  ∧ (∀ op : Byte, op.toNat ∉ assignedBytes ↔ opcodeTable modelParams op = none)
  ∧ (∀ s : State, (opcodeAt s).toNat ∉ assignedBytes →
      step s = .fault (.unrecognizedOpcode (opcodeAt s) s.pc) ∧ tick s = s ∧ busTrace s = [.read s.pc])

/-- R91 (decision D8): the four indirect bytes have an entry that cannot execute; with `INDIRECT_ENTRIES_PRESENT`
false they are unassigned. -/
def Obligations.IndirectBytesFollowTheSwitch : Prop :=
  ∀ (p : Params) (op : Byte), p.legal = true → op.toNat ∈ [0x81, 0x91, 0xA1, 0xB1] →
    (p.indirectEntriesPresent = true →
      ∃ e, opcodeTable p op = some e ∧ (e.mode = .indirectX ∨ e.mode = .indirectY) ∧ e.nbytes = 2)
    ∧ (p.indirectEntriesPresent = false → ∀ rest, decodeWith p (op :: rest) = .error (.unassignedOpcode op))

/-! ## The resolver -/

/-- R82: how each operand form is built, in the spec's integer arithmetic; the two indirect modes are not
assembled. -/
def Obligations.OperandsAreAssembledUnsigned : Prop :=
  ∀ (s : State) (m : MemOperand) (b1 : Byte),
    (effectiveAddress m s).toNat = eaOf m s
    ∧ resolve .implied s = some .noOperand
    ∧ resolve (.immediate b1) s = some (.immediateValue (pcPlus 1 s) b1)
    ∧ resolve (.memory m) s = some (.effective (BitVec.ofNat 16 (eaOf m s)))
    ∧ resolve (.indirectX b1) s = none ∧ resolve (.indirectY b1) s = none
    ∧ (∀ lo hi : Byte, (addrOfBytes lo hi).toNat = lo.toNat + 256 * hi.toNat)

/-- R110: a fetched Immediate operand is the byte at `r.ea = (a0 + 1) mod 65536`, in a two-byte entry, and only
loads have one. -/
def Obligations.ImmediateValueIsTheByteAtItsAddress : Prop :=
  ∀ (s : State) (i : Instr) (rest : List Byte) (b1 : Byte),
    decode (fetchBytes s) = .ok (i, rest) → i.operand = .immediate b1 →
    resolve i.operand s = some (.immediateValue (pcPlus 1 s) b1) ∧ readByte (pcPlus 1 s) s = b1
    ∧ i.entry.nbytes = 2 ∧ (i.mnemonic = .lda ∨ i.mnemonic = .ldx ∨ i.mnemonic = .ldy)

/-! ## The instructions -/

/-- R131 to R136: LDA in its six working modes: what each execution answers, and how each is encoded and what the
port sees. -/
def Obligations.LdaLoadsAccumulator : Prop :=
  ∀ (s : State) (b1 : Byte) (base : Addr),
    exec (.ldaImmediate b1) s = .next { s with a := b1, flags := withNZ b1 s.flags, pc := pcPlus 2 s }
    ∧ exec (.ldaZeroPage b1) s = .next { s with
        a := memValue (.zeroPage b1) s, flags := withNZ (memValue (.zeroPage b1) s) s.flags, pc := pcPlus 2 s }
    ∧ exec (.ldaZeroPageX b1) s = .next { s with
        a := memValue (.zeroPageX b1) s, flags := withNZ (memValue (.zeroPageX b1) s) s.flags, pc := pcPlus 2 s }
    ∧ exec (.ldaAbsolute base) s = .next { s with
        a := memValue (.absolute base) s, flags := withNZ (memValue (.absolute base) s) s.flags, pc := pcPlus 3 s }
    ∧ exec (.ldaAbsoluteX base) s = .next { s with
        a := memValue (.absoluteX base) s, flags := withNZ (memValue (.absoluteX base) s) s.flags, pc := pcPlus 3 s }
    ∧ exec (.ldaAbsoluteY base) s = .next { s with
        a := memValue (.absoluteY base) s, flags := withNZ (memValue (.absoluteY base) s) s.flags, pc := pcPlus 3 s }
    ∧ Encodes 0xA9#8 (.ldaImmediate (operand1 s)) 2 [] s
    ∧ Encodes 0xA5#8 (.ldaZeroPage (operand1 s)) 2 (readAt (.zeroPage (operand1 s)) s) s
    ∧ Encodes 0xB5#8 (.ldaZeroPageX (operand1 s)) 2 (readAt (.zeroPageX (operand1 s)) s) s
    ∧ Encodes 0xAD#8 (.ldaAbsolute (operand16 s)) 3 (readAt (.absolute (operand16 s)) s) s
    ∧ Encodes 0xBD#8 (.ldaAbsoluteX (operand16 s)) 3 (readAt (.absoluteX (operand16 s)) s) s
    ∧ Encodes 0xB9#8 (.ldaAbsoluteY (operand16 s)) 3 (readAt (.absoluteY (operand16 s)) s) s

/-- R139 to R143: LDX in its five modes. -/
def Obligations.LdxLoadsIndexX : Prop :=
  ∀ (s : State) (b1 : Byte) (base : Addr),
    exec (.ldxImmediate b1) s = .next { s with x := b1, flags := withNZ b1 s.flags, pc := pcPlus 2 s }
    ∧ exec (.ldxZeroPage b1) s = .next { s with
        x := memValue (.zeroPage b1) s, flags := withNZ (memValue (.zeroPage b1) s) s.flags, pc := pcPlus 2 s }
    ∧ exec (.ldxZeroPageY b1) s = .next { s with
        x := memValue (.zeroPageY b1) s, flags := withNZ (memValue (.zeroPageY b1) s) s.flags, pc := pcPlus 2 s }
    ∧ exec (.ldxAbsolute base) s = .next { s with
        x := memValue (.absolute base) s, flags := withNZ (memValue (.absolute base) s) s.flags, pc := pcPlus 3 s }
    ∧ exec (.ldxAbsoluteY base) s = .next { s with
        x := memValue (.absoluteY base) s, flags := withNZ (memValue (.absoluteY base) s) s.flags, pc := pcPlus 3 s }
    ∧ Encodes 0xA2#8 (.ldxImmediate (operand1 s)) 2 [] s
    ∧ Encodes 0xA6#8 (.ldxZeroPage (operand1 s)) 2 (readAt (.zeroPage (operand1 s)) s) s
    ∧ Encodes 0xB6#8 (.ldxZeroPageY (operand1 s)) 2 (readAt (.zeroPageY (operand1 s)) s) s
    ∧ Encodes 0xAE#8 (.ldxAbsolute (operand16 s)) 3 (readAt (.absolute (operand16 s)) s) s
    ∧ Encodes 0xBE#8 (.ldxAbsoluteY (operand16 s)) 3 (readAt (.absoluteY (operand16 s)) s) s

/-- R144 to R148: LDY in its five modes. -/
def Obligations.LdyLoadsIndexY : Prop :=
  ∀ (s : State) (b1 : Byte) (base : Addr),
    exec (.ldyImmediate b1) s = .next { s with y := b1, flags := withNZ b1 s.flags, pc := pcPlus 2 s }
    ∧ exec (.ldyZeroPage b1) s = .next { s with
        y := memValue (.zeroPage b1) s, flags := withNZ (memValue (.zeroPage b1) s) s.flags, pc := pcPlus 2 s }
    ∧ exec (.ldyZeroPageX b1) s = .next { s with
        y := memValue (.zeroPageX b1) s, flags := withNZ (memValue (.zeroPageX b1) s) s.flags, pc := pcPlus 2 s }
    ∧ exec (.ldyAbsolute base) s = .next { s with
        y := memValue (.absolute base) s, flags := withNZ (memValue (.absolute base) s) s.flags, pc := pcPlus 3 s }
    ∧ exec (.ldyAbsoluteX base) s = .next { s with
        y := memValue (.absoluteX base) s, flags := withNZ (memValue (.absoluteX base) s) s.flags, pc := pcPlus 3 s }
    ∧ Encodes 0xA0#8 (.ldyImmediate (operand1 s)) 2 [] s
    ∧ Encodes 0xA4#8 (.ldyZeroPage (operand1 s)) 2 (readAt (.zeroPage (operand1 s)) s) s
    ∧ Encodes 0xB4#8 (.ldyZeroPageX (operand1 s)) 2 (readAt (.zeroPageX (operand1 s)) s) s
    ∧ Encodes 0xAC#8 (.ldyAbsolute (operand16 s)) 3 (readAt (.absolute (operand16 s)) s) s
    ∧ Encodes 0xBC#8 (.ldyAbsoluteX (operand16 s)) 3 (readAt (.absoluteX (operand16 s)) s) s

/-- R151 to R155: STA in its five working modes. -/
def Obligations.StaStoresAccumulator : Prop :=
  ∀ (s : State) (b1 : Byte) (base : Addr),
    Stores (.zeroPage b1) s.a 2 s (exec (.staZeroPage b1) s)
    ∧ Stores (.zeroPageX b1) s.a 2 s (exec (.staZeroPageX b1) s)
    ∧ Stores (.absolute base) s.a 3 s (exec (.staAbsolute base) s)
    ∧ Stores (.absoluteX base) s.a 3 s (exec (.staAbsoluteX base) s)
    ∧ Stores (.absoluteY base) s.a 3 s (exec (.staAbsoluteY base) s)
    ∧ Encodes 0x85#8 (.staZeroPage (operand1 s)) 2 (writeAt (.zeroPage (operand1 s)) s.a s) s
    ∧ Encodes 0x95#8 (.staZeroPageX (operand1 s)) 2 (writeAt (.zeroPageX (operand1 s)) s.a s) s
    ∧ Encodes 0x8D#8 (.staAbsolute (operand16 s)) 3 (writeAt (.absolute (operand16 s)) s.a s) s
    ∧ Encodes 0x9D#8 (.staAbsoluteX (operand16 s)) 3 (writeAt (.absoluteX (operand16 s)) s.a s) s
    ∧ Encodes 0x99#8 (.staAbsoluteY (operand16 s)) 3 (writeAt (.absoluteY (operand16 s)) s.a s) s

/-- R158 to R163: STX and STY in their three modes each. -/
def Obligations.StxAndStyStoreIndexRegisters : Prop :=
  ∀ (s : State) (b1 : Byte) (base : Addr),
    Stores (.zeroPage b1) s.x 2 s (exec (.stxZeroPage b1) s)
    ∧ Stores (.zeroPageY b1) s.x 2 s (exec (.stxZeroPageY b1) s)
    ∧ Stores (.absolute base) s.x 3 s (exec (.stxAbsolute base) s)
    ∧ Stores (.zeroPage b1) s.y 2 s (exec (.styZeroPage b1) s)
    ∧ Stores (.zeroPageX b1) s.y 2 s (exec (.styZeroPageX b1) s)
    ∧ Stores (.absolute base) s.y 3 s (exec (.styAbsolute base) s)
    ∧ Encodes 0x86#8 (.stxZeroPage (operand1 s)) 2 (writeAt (.zeroPage (operand1 s)) s.x s) s
    ∧ Encodes 0x96#8 (.stxZeroPageY (operand1 s)) 2 (writeAt (.zeroPageY (operand1 s)) s.x s) s
    ∧ Encodes 0x8E#8 (.stxAbsolute (operand16 s)) 3 (writeAt (.absolute (operand16 s)) s.x s) s
    ∧ Encodes 0x84#8 (.styZeroPage (operand1 s)) 2 (writeAt (.zeroPage (operand1 s)) s.y s) s
    ∧ Encodes 0x94#8 (.styZeroPageX (operand1 s)) 2 (writeAt (.zeroPageX (operand1 s)) s.y s) s
    ∧ Encodes 0x8C#8 (.styAbsolute (operand16 s)) 3 (writeAt (.absolute (operand16 s)) s.y s) s

/-- R170 to R174 (decision D9, log entry 3): the four transfers write no flag (the default `TRANSFER_SETS_NZ =
false`); with the switch on, the shared operation sets Z and N from the copied value. -/
def Obligations.TransfersCopyARegister : Prop :=
  ∀ s : State,
    exec .tax s = .next { s with x := s.a, pc := pcPlus 1 s }
    ∧ exec .txa s = .next { s with a := s.x, pc := pcPlus 1 s }
    ∧ exec .tay s = .next { s with y := s.a, pc := pcPlus 1 s }
    ∧ exec .tya s = .next { s with a := s.y, pc := pcPlus 1 s }
    ∧ Encodes 0xAA#8 .tax 1 [] s ∧ Encodes 0x8A#8 .txa 1 [] s
    ∧ Encodes 0xA8#8 .tay 1 [] s ∧ Encodes 0x98#8 .tya 1 [] s
    ∧ (∀ src dst : Reg, transferReg true src dst s
        = { transferReg false src dst s with flags := withNZ (getReg src s) s.flags })

/-- R180 to R185: increments and decrements, modulo 256, whatever the flags hold. INC A's byte 0x1A is the spec's
decision D7 (`OPC_INC_A`, log entry 3). -/
def Obligations.IncrementsAndDecrementsWrap : Prop :=
  ∀ s : State,
    let up (v : Byte) : Byte := BitVec.ofNat 8 ((v.toNat + 1) % 256)
    let down (v : Byte) : Byte := BitVec.ofNat 8 ((v.toNat + 255) % 256)
    exec .inx s = .next { s with x := up s.x, flags := withNZ (up s.x) s.flags, pc := pcPlus 1 s }
    ∧ exec .iny s = .next { s with y := up s.y, flags := withNZ (up s.y) s.flags, pc := pcPlus 1 s }
    ∧ exec .dex s = .next { s with x := down s.x, flags := withNZ (down s.x) s.flags, pc := pcPlus 1 s }
    ∧ exec .dey s = .next { s with y := down s.y, flags := withNZ (down s.y) s.flags, pc := pcPlus 1 s }
    ∧ exec .incA s = .next { s with a := up s.a, flags := withNZ (up s.a) s.flags, pc := pcPlus 1 s }
    ∧ Encodes 0xE8#8 .inx 1 [] s ∧ Encodes 0xC8#8 .iny 1 [] s ∧ Encodes 0xCA#8 .dex 1 [] s
    ∧ Encodes 0x88#8 .dey 1 [] s ∧ Encodes 0x1A#8 .incA 1 [] s

/-- R190 to R197: each flag instruction assigns exactly its flag. -/
def Obligations.FlagInstructionsAssignOneFlag : Prop :=
  ∀ s : State,
    exec .clc s = .next { s with flags := { s.flags with c := false }, pc := pcPlus 1 s }
    ∧ exec .sec s = .next { s with flags := { s.flags with c := true }, pc := pcPlus 1 s }
    ∧ exec .cli s = .next { s with flags := { s.flags with i := false }, pc := pcPlus 1 s }
    ∧ exec .sei s = .next { s with flags := { s.flags with i := true }, pc := pcPlus 1 s }
    ∧ exec .cld s = .next { s with flags := { s.flags with d := false }, pc := pcPlus 1 s }
    ∧ exec .sed s = .next { s with flags := { s.flags with d := true }, pc := pcPlus 1 s }
    ∧ exec .clv s = .next { s with flags := { s.flags with v := false }, pc := pcPlus 1 s }
    ∧ Encodes 0x18#8 .clc 1 [] s ∧ Encodes 0x38#8 .sec 1 [] s ∧ Encodes 0x58#8 .cli 1 [] s
    ∧ Encodes 0x78#8 .sei 1 [] s ∧ Encodes 0xD8#8 .cld 1 [] s ∧ Encodes 0xF8#8 .sed 1 [] s
    ∧ Encodes 0xB8#8 .clv 1 [] s

/-- R200: NOP advances `PC` and does nothing else. -/
def Obligations.NopOnlyAdvances : Prop :=
  ∀ s : State, exec .nop s = .next { s with pc := pcPlus 1 s } ∧ Encodes 0xEA#8 .nop 1 [] s

/-- R205: JMP leaves `PC` at its target exactly and changes nothing else, from any state; the target is not
read. -/
def Obligations.JumpLandsExactlyOnTarget : Prop :=
  ∀ s : State,
    (∀ target : Addr, exec (.jmpAbsolute target) s = .next { s with pc := target })
    ∧ Encodes 0x4C#8 (.jmpAbsolute (operand16 s)) 3 [] s
    ∧ (opcodeAt s = 0x4C#8 → ∃ t, step s = .next t
        ∧ t.pc.toNat = (operand1 s).toNat + 256 * (operand2 s).toNat)

/-- R137, R138, R156, R157, R212: the four indirect instructions report UnimplementedMode with their opcode and
address and change nothing; the operand byte is not read. -/
def Obligations.IndirectModesFault : Prop :=
  ∀ (s : State) (b1 : Byte),
    exec (.ldaIndirectX b1) s = .fault (.unimplementedMode 0xA1#8 s.pc)
    ∧ exec (.ldaIndirectY b1) s = .fault (.unimplementedMode 0xB1#8 s.pc)
    ∧ exec (.staIndirectX b1) s = .fault (.unimplementedMode 0x81#8 s.pc)
    ∧ exec (.staIndirectY b1) s = .fault (.unimplementedMode 0x91#8 s.pc)
    ∧ ((opcodeAt s).toNat ∈ [0x81, 0x91, 0xA1, 0xB1] →
        step s = .fault (.unimplementedMode (opcodeAt s) s.pc) ∧ tick s = s ∧ busTrace s = [.read s.pc])

/-! ## The step -/

/-- The step runs the decoded instruction: `PC` advances inside the instruction's own meaning, and the step adds
nothing around it (R100). -/
def Obligations.StepRunsDecodedInstruction : Prop :=
  ∀ (s : State) (i : Instr) (rest : List Byte),
    decode (fetchBytes s) = .ok (i, rest) → step s = exec i s ∧ rest = [] ∧ i.wellFormed modelParams = true

/-- A well-formed instruction whose encoding stands at `PC`, wrapping at the top of memory, is the one that runs
(R100, R108). -/
def Obligations.StepRunsInstructionEncodedAtPC : Prop :=
  ∀ (s : State) (i : Instr), i.wellFormed modelParams = true →
    (∀ k (h : k < (encode i).length), cell ((s.pc.toNat + k) % 65536) s = (encode i)[k]) →
    decode (fetchBytes s) = .ok (i, []) ∧ step s = exec i s

/-- R217: the opcode byte alone decides the outcome's kind; no step is refused, and no other fault exists. -/
def Obligations.OpcodeByteDecidesOutcome : Prop :=
  ∀ s : State,
    (opcodeTable modelParams (opcodeAt s) = none →
      step s = .fault (.unrecognizedOpcode (opcodeAt s) s.pc))
    ∧ (∀ e, opcodeTable modelParams (opcodeAt s) = some e →
        ((e.mode = .indirectX ∨ e.mode = .indirectY) →
          step s = .fault (.unimplementedMode (opcodeAt s) s.pc))
        ∧ (e.mode ≠ .indirectX → e.mode ≠ .indirectY → ∃ t, step s = .next t))

/-- R106: `PC` advances by the entry's `nbytes` modulo 65,536, whatever the instruction did, unless the entry is
JMP's, which leaves the target. -/
def Obligations.ProgramCounterAdvancesByEntryLength : Prop :=
  ∀ (s t : State) (e : Entry), opcodeTable modelParams (opcodeAt s) = some e → step s = .next t →
    (e.advance = true → t.pc.toNat = (s.pc.toNat + e.nbytes) % 65536)
    ∧ (e.advance = false → t.pc = operand16 s)

/-- R105: a step changes only what its instruction's rule lists, plus `PC`; a step fault changes nothing. -/
def Obligations.StepChangesOnlyWhatIsListed : Prop :=
  (∀ (i : Instr) (s t : State), exec i s = .next t →
    t.sp = s.sp
    ∧ (∀ r, r ∉ regsWritten i.mnemonic → getReg r t = getReg r s)
    ∧ (∀ f, f ∉ flagsWritten i.mnemonic → getFlag f t = getFlag f s)
    ∧ (∀ k, (∀ m r, i.operand = .memory m → dataUse i.mnemonic = .writes r → k ≠ effectiveAddress m s) →
        readByte k t = readByte k s))
  ∧ (∀ (s : State) (f : Fault), step s = .fault f → tick s = s)

/-- R119 on all who use it: after an instruction that writes Z and N they describe the register it wrote, and are
never both set. -/
def Obligations.ZeroAndNegativeDescribeTheResult : Prop :=
  ∀ (i : Instr) (s t : State) (r : Reg),
    regsWritten i.mnemonic = [r] → flagsWritten i.mnemonic = [.z, .n] → exec i s = .next t →
    (t.flags.z = true ↔ (getReg r t).toNat = 0) ∧ (t.flags.n = true ↔ 128 ≤ (getReg r t).toNat)
    ∧ ¬(t.flags.z = true ∧ t.flags.n = true)

/-- R21, column "read by": an instruction's result does not depend on a register it is not listed as reading. -/
def Obligations.UnlistedRegistersAreNotRead : Prop :=
  ∀ (i : Instr) (s : State) (r : Reg) (v : Byte), r ∉ regsRead i →
    exec i (setReg r v s)
      = mapNext (fun t => if r ∈ regsWritten i.mnemonic then t else setReg r v t) (exec i s)

/-- R28, column "read by": no instruction reads a flag, so other flags before a step give the same step but for the
flags; a flag the instruction writes gets the same value, every other flag keeps its own. -/
def Obligations.NoInstructionReadsAFlag : Prop :=
  ∀ (i : Instr) (s : State) (f : Flags),
    ∃ g : Flags, exec i { s with flags := f } = mapNext (fun t => { t with flags := g }) (exec i s)
      ∧ (∀ h, h ∉ flagsWritten i.mnemonic → g.get h = f.get h)
      ∧ (∀ h t, h ∈ flagsWritten i.mnemonic → exec i s = .next t → g.get h = t.flags.get h)

/-- R26: no step reads or writes SP; only reset and construction write it. -/
def Obligations.StackPointerIsNeverUsed : Prop :=
  (∀ (s : State) (v : Byte), step { s with sp := v } = mapNext (fun t => { t with sp := v }) (step s))
  ∧ (∀ s t : State, step s = .next t → t.sp = s.sp)
  ∧ (∀ (pc : Addr) (s : State), (resetTo pc s).sp = Config.spReset ∧ (construct s.mem pc).sp = Config.spReset)

/-- R58, R59: the writes on the port are exactly the memory's change, at most one, and after every read. -/
def Obligations.PortWritesAreTheMemoryChange : Prop :=
  ∀ s t : State, step s = .next t →
    t.mem = applyWrites (busTrace s) s.mem
    ∧ ∃ reads : List Addr,
        busTrace s = reads.map .read ∨ ∃ k v, busTrace s = reads.map .read ++ [.write k v]

/-- R104 with R58: a step depends on memory only through the cells its port accesses read. Over any other memory
that agrees on those, it makes the same accesses and gives the same outcome, with the same write. -/
def Obligations.StepDependsOnlyOnCellsItReads : Prop :=
  ∀ (s : State) (mem : Memory),
    (∀ k, Access.read k ∈ busTrace s → readByte k { s with mem := mem } = readByte k s) →
    busTrace { s with mem := mem } = busTrace s
    ∧ step { s with mem := mem }
        = mapNext (fun t => { t with mem := applyWrites (busTrace s) mem }) (step s)

/-! ## Faults and runs -/

/-- R210 (the codes are the spec's decision D12): the result's code and payload; the payload is the byte at `PC`
and `PC` itself, which the tick leaves. -/
def Obligations.StepResultHasCodeAndPayload : Prop :=
  ∀ s : State, ∃ r, tickResult s = some r
    ∧ ((r = .ok ∧ r.code = 0#2 ∧ r.payload = none ∧ step s = .next (tick s))
      ∨ (r = .unrecognizedOpcode (opcodeAt s) s.pc ∧ r.code = 1#2
          ∧ r.payload = some (opcodeAt s, s.pc) ∧ tick s = s)
      ∨ (r = .unimplementedMode (opcodeAt s) s.pc ∧ r.code = 2#2
          ∧ r.payload = some (opcodeAt s, s.pc) ∧ tick s = s))

/-- R213: a tick that faults is repeated by every later tick, with the same payload. -/
def Obligations.FaultRepeatsForEver : Prop :=
  ∀ (s : State) (k : Nat), tickResult s ≠ some .ok →
    ticks k s = s ∧ tickResult (ticks k s) = tickResult s

/-- R254: a JMP to itself repeats for ever with result Ok, so it "never reaches a fault or a new `PC`, and only the
tick-count form ends it". -/
def Obligations.ClosedJumpEndsOnlyByTickCount : Prop :=
  ∀ s : State, opcodeAt s = 0x4C#8 → operand16 s = s.pc →
    (∀ k, ticks k s = s ∧ tickResult (ticks k s) = some .ok)
    ∧ (∀ k, ¬ runEnds .firstFault s k)
    ∧ (∀ addr k, addr ≠ s.pc → ¬ runEnds (.pcAt addr) s k)
    ∧ (∀ n, runEnds (.afterTicks n) s n)

/-- R253 and R254: a run over `n` NOPs into a byte with no entry ends by a fault after exactly `n + 1` ticks, with
`PC` at that byte, everything else as it was, and stays there. -/
def Obligations.StraightLineRunEndsAtFirstUnassignedByte : Prop :=
  ∀ (s : State) (n : Nat), (∀ k, k < n → cell ((s.pc.toNat + k) % 65536) s = 0xEA#8) →
    (cell ((s.pc.toNat + n) % 65536) s).toNat ∉ assignedBytes →
    (∀ k, runEnds .firstFault s k ↔ k = n + 1)
    ∧ (∀ k, n ≤ k → ticks k s = { s with pc := pcPlus n s }
        ∧ tickResult (ticks k s)
            = some (.unrecognizedOpcode (cell ((s.pc.toNat + n) % 65536) s) (pcPlus n s)))

/-! ## The host at step boundaries -/

/-- R66, with R14 and R13: a memory read by a device, or an inspection, at any step boundary changes nothing and
answers the state there; a read after a step sees its store; and of all cells a tick changes at most the one at
the effective address of the store it runs, so a device sees no part of a step but may see a longer value half
updated between two. -/
def Obligations.HostReadsSeeCompletedSteps : Prop :=
  (∀ (ops : List HostOp) (k : Addr) (s : State),
    hostReports (ops ++ [.readMemory k, .inspect]) s
      = hostReports ops s ++ [.byte (readByte k (runHostOps ops s)), .outputs (introspect (runHostOps ops s))])
  ∧ (∀ (ops : List HostOp) (s : State), runHostOps ops s = runHostOps (ops.filter HostOp.drives) s)
  ∧ (∀ (s : State) (i : Instr) (m : MemOperand) (r : Reg) (rest : List Byte), s.mem.wf = true →
      decode (fetchBytes s) = .ok (i, rest) → i.operand = .memory m → dataUse i.mnemonic = .writes r →
      hostReports [.tick, .readMemory (effectiveAddress m s)] s
        = [.stepped (some .ok), .byte (getReg r s)])
  ∧ (∀ (s : State) (j : Addr),
      (∀ i rest m r, decode (fetchBytes s) = .ok (i, rest) → i.operand = .memory m →
        dataUse i.mnemonic = .writes r → j ≠ effectiveAddress m s) →
      readByte j (tick s) = readByte j s)

/-! ## Invariants -/

/-- The invariant holds right after reset, at whatever entry address, over any memory in canonical form. -/
def Obligations.InvariantHoldsAfterReset : Prop :=
  Invariant State.reset
  ∧ (∀ (pc : Addr) (s : State), s.mem.wf = true → Invariant (resetTo pc s) ∧ Invariant (construct s.mem pc))

/-- Every step keeps the invariant: the memory's canonical form, R = 1, B = 0, V = 0 (R29, R30). -/
def Obligations.EveryStepKeepsInvariant : Prop :=
  ∀ s t : State, Invariant s → step s = .next t → Invariant t

/-- R29: the Reserved flag is 1 after construction, after every reset and after every step; with it B = 0 and V = 0
(R28, R30), `SP = SP_RESET` (R26, R241), and the memory's canonical form (log entry 4, DESIGN CHOICE), in every
state a system reaches, whatever image is loaded, wherever it starts, and however the host mixes its operations. -/
def Obligations.EveryReachableStateKeepsInvariant : Prop :=
  (∀ (image : List Byte) (base entry : Addr) (ops : List HostOp),
    Invariant (runHostOps ops (systemStart image base entry))
    ∧ (runHostOps ops (systemStart image base entry)).sp = Config.spReset)
  ∧ (∀ s t : State, step s = .next t → t.flags.r = s.flags.r)
  ∧ (∀ (pc : Addr) (s : State), (resetTo pc s).flags.r = true ∧ (construct s.mem pc).flags.r = true)

/-- R33's reachable values of `P`, as far as R28 and R119 allow them (log entry 15, DESIGN CHOICE): with V = 0,
B = 0 and R = 1, every combination of `N Z C D I` but those with N = Z = 1 is reached by some program, and those
are reached by none. -/
def Obligations.ReachableFlagsAreAllButNegativeZero : Prop :=
  (∀ n z c d i : Bool, ¬(n = true ∧ z = true) →
    ∃ (image : List Byte) (base entry : Addr) (ops : List HostOp),
      (runHostOps ops (systemStart image base entry)).flags
        = { n := n, v := false, r := true, b := false, d := d, i := i, z := z, c := c })
  ∧ (∀ (image : List Byte) (base entry : Addr) (ops : List HostOp),
      let f := (runHostOps ops (systemStart image base entry)).flags
      f.v = false ∧ f.r = true ∧ f.b = false ∧ ¬(f.n = true ∧ f.z = true))

/-! ## Sequences -/

/-- The source's round trip (95_test_vectors.md S3): `8D lo hi AD lo hi` at `PC`, the address outside those six
bytes: after two ticks A is unchanged, the cell holds it, and Z and N describe it. -/
def Obligations.StoreThenLoadReturnsValue : Prop :=
  ∀ (s : State) (lo hi : Byte), s.mem.wf = true →
    (∀ k (h : k < 6), cell ((s.pc.toNat + k) % 65536) s = [0x8D#8, lo, hi, 0xAD#8, lo, hi][k]) →
    (∀ k, k < 6 → (lo.toNat + 256 * hi.toNat) ≠ (s.pc.toNat + k) % 65536) →
    tickResult s = some .ok ∧ tickResult (tick s) = some .ok
    ∧ (ticks 2 s).a = s.a ∧ cell (lo.toNat + 256 * hi.toNat) (ticks 2 s) = s.a
    ∧ (ticks 2 s).flags = withNZ s.a s.flags ∧ (ticks 2 s).pc = pcPlus 6 s

/-- R68: the byte a store leaves where the next instruction stands is the opcode the next step fetches: an
unassigned one faults, a one-byte instruction runs. -/
def Obligations.StoredByteIsFetchedByNextStep : Prop :=
  ∀ (i : Instr) (m : MemOperand) (r : Reg) (s t : State), s.mem.wf = true →
    i.operand = .memory m → dataUse i.mnemonic = .writes r → effectiveAddress m s = t.pc → exec i s = .next t →
    opcodeAt t = getReg r s
    ∧ (opcodeTable modelParams (getReg r s) = none → step t = .fault (.unrecognizedOpcode (getReg r s) t.pc))
    ∧ (∀ j : Instr, encode j = [getReg r s] → step t = exec j t)

/-- R69, on its own example: STA Absolute onto its low operand byte executes as fetched, and the instruction seen
there the next time has the stored byte as its low operand byte. -/
def Obligations.StoreOntoOwnOperandExecutesAsFetched : Prop :=
  ∀ s t : State, s.mem.wf = true → opcodeAt s = 0x8D#8 → operand16 s = pcPlus 1 s → step s = .next t →
    t.a = s.a ∧ t.pc = pcPlus 3 s ∧ operand1 (setPC s.pc t) = s.a
    ∧ (∀ k, k ≠ pcPlus 1 s → readByte k t = readByte k s)
    ∧ step (setPC s.pc t)
        = exec (.staAbsolute (BitVec.ofNat 16 (s.a.toNat + 256 * (operand2 s).toNat))) (setPC s.pc t)

/-- R180 over a run of increments: `k` INX add `k` modulo 256, and Z after the last says whether the sum is 0
(95_test_vectors.md L8). -/
def Obligations.RepeatedInxCountsModulo256 : Prop :=
  ∀ (k : Nat) (s : State), ∃ t, execTimes k .inx s = .next t
    ∧ t.x.toNat = (s.x.toNat + k) % 256 ∧ t.a = s.a ∧ t.y = s.y ∧ t.mem = s.mem
    ∧ t.pc = pcPlus k s
    ∧ (0 < k → (t.flags.z = true ↔ (s.x.toNat + k) % 256 = 0))

/-- A word placed by `withFetchWord` is the instruction that the next step runs (R100); only memory differs. The
placing stands for the loader of R14 (log entry 1); that the memory is in canonical form again is the model's
representation (log entry 4, DESIGN CHOICE). -/
def Obligations.PlacedWordIsTheNextInstruction : Prop :=
  ∀ (s : State) (nbits w : Nat) (i : Instr), s.mem.wf = true → decodeTableWord nbits w = some i →
    step (s.withFetchWord nbits w) = exec i (s.withFetchWord nbits w)
    ∧ s.withFetchWord nbits w = { s with mem := (s.withFetchWord nbits w).mem }
    ∧ (s.withFetchWord nbits w).mem.wf = true

/-! ## Introspection -/

/-- R32 (decision D5): the status byte's layout. -/
def Obligations.StatusByteLayout : Prop :=
  ∀ f : Flags, f.toP.toNat
    = 128 * f.n.toNat + 64 * f.v.toNat + 32 * f.r.toNat + 16 * f.b.toNat
      + 8 * f.d.toNat + 4 * f.i.toNat + 2 * f.z.toNat + f.c.toNat

/-- R13: the introspection outputs show `A`, `X`, `Y`, `PC`, `SP` and each flag: states that look alike differ in
memory at most. The layout of `dbg_p` is R32's (decision D5). -/
def Obligations.IntrospectionShowsAllButMemory : Prop :=
  ∀ s t : State,
    introspect s = { dbgA := s.a, dbgX := s.x, dbgY := s.y, dbgSP := s.sp, dbgPC := s.pc, dbgP := s.flags.toP }
    ∧ (introspect s = introspect t ↔ s = { t with mem := s.mem })
end

