-- ==== Sys2Proof/Laws/Decode.lean ====
section
/-! SUPPORT. The small laws of the decoder's helpers: the two bytes of an address, and a row found in the map. -/

namespace Sys2Proof.Laws

theorem addrOfBytes_toNat (lo hi : Byte) : (addrOfBytes lo hi).toNat = lo.toNat + 256 * hi.toNat := by
  have hlo : lo.toNat < 2 ^ 8 := lo.isLt
  have h : (addrOfBytes lo hi).toNat = hi.toNat <<< 8 ||| lo.toNat := BitVec.toNat_append hi lo
  rw [h, ← Nat.shiftLeft_add_eq_or_of_lt hlo, Nat.shiftLeft_eq]
  omega

/-- Splitting an assembled address gives its two bytes back. -/
theorem bytesOfAddr_addrOfBytes (lo hi : Byte) : bytesOfAddr (addrOfBytes lo hi) = [lo, hi] := by
  have hlo : lo.toNat < 2 ^ 8 := lo.isLt
  have hhi : hi.toNat < 2 ^ 8 := hi.isLt
  have h1 : (addrOfBytes lo hi).extractLsb' 0 8 = lo := by
    apply BitVec.eq_of_toNat_eq
    simp only [BitVec.extractLsb'_toNat, addrOfBytes_toNat, Nat.shiftRight_zero]
    omega
  have h2 : (addrOfBytes lo hi).extractLsb' 8 8 = hi := by
    apply BitVec.eq_of_toNat_eq
    simp only [BitVec.extractLsb'_toNat, addrOfBytes_toNat, Nat.shiftRight_eq_div_pow]
    omega
  simp only [bytesOfAddr, h1, h2]

/-- Assembling an address's two bytes gives it back. -/
theorem addrOfBytes_extract (a : Addr) : addrOfBytes (a.extractLsb' 0 8) (a.extractLsb' 8 8) = a := by
  have ha : a.toNat < 2 ^ 16 := a.isLt
  apply BitVec.eq_of_toNat_eq
  simp only [addrOfBytes_toNat, BitVec.extractLsb'_toNat, Nat.shiftRight_eq_div_pow]
  omega

/-- A row that the lookup finds stands in the map under its opcode byte. -/
theorem mem_of_formOf {p : Params} {op : Byte} {f : Form} (h : formOf p op = some f) :
    (op, f) ∈ opcodeRows p := by
  unfold formOf at h
  generalize opcodeRows p = rows at h ⊢
  induction rows with
  | nil => simp at h
  | cons row rest ih =>
    obtain ⟨k, g⟩ := row
    simp only [List.lookup] at h
    split at h
    · next e =>
      obtain rfl := Option.some.inj h
      simp [eq_of_beq e]
    · exact List.mem_cons_of_mem _ (ih h)

end Sys2Proof.Laws
end

