-- ==== Sys2Proof/Laws/Memory.lean ====
section
/-! SUPPORT. The laws of the memory list: what a write does to each cell, and that it keeps the canonical form. -/

namespace Sys2Proof.Laws

open Sys2Proof.Machine

theorem read_consCell_ne (a b : Nat) (v : Byte) (m : Memory) (h : b ≠ a) :
    Memory.read (consCell a v m) b = Memory.read m b := by
  unfold consCell
  split
  · rfl
  · simp [Memory.read, Ne.symm h]

/-- A write leaves every other cell alone, canonical form or not. -/
theorem read_write_ne (m : Memory) (a b : Nat) (v : Byte) (h : b ≠ a) :
    Memory.read (m.write a v) b = Memory.read m b := by
  induction m with
  | nil => exact read_consCell_ne a b v [] h
  | cons c rest ih =>
    obtain ⟨k, w⟩ := c
    simp only [Memory.write]
    split
    · exact read_consCell_ne a b v _ h
    · split
      · next hk =>
        rw [read_consCell_ne a b v rest h]
        simp [Memory.read, show k ≠ b by omega]
      · simp only [Memory.read, ih]

/-- A memory whose addresses all lie above `a` lists nothing at `a`. -/
theorem read_below {lo : Nat} {m : Memory} (h : risingFrom lo m = true) {a : Nat} (ha : a < lo) :
    Memory.read m a = unlistedByte := by
  induction m generalizing lo with
  | nil => rfl
  | cons c rest ih =>
    obtain ⟨k, w⟩ := c
    simp only [risingFrom, Bool.and_eq_true, decide_eq_true_eq] at h
    simp [Memory.read, show k ≠ a by omega, ih h.2 (by omega)]

theorem read_consCell_same {lo : Nat} {m : Memory} (h : risingFrom lo m = true) {a : Nat} (ha : a < lo)
    (v : Byte) : Memory.read (consCell a v m) a = v := by
  unfold consCell
  split
  · next hv => rw [read_below h ha, hv]
  · simp [Memory.read]

/-- A write is read back, in a memory of canonical form. -/
theorem read_write_same_from {lo : Nat} {m : Memory} (h : risingFrom lo m = true) (a : Nat) (v : Byte) :
    Memory.read (m.write a v) a = v := by
  induction m generalizing lo with
  | nil => exact read_consCell_same (lo := a + 1) rfl (by omega) v
  | cons c rest ih =>
    obtain ⟨k, w⟩ := c
    have hr := h
    simp only [risingFrom, Bool.and_eq_true, decide_eq_true_eq] at hr
    simp only [Memory.write]
    split
    · next hak =>
      refine read_consCell_same (lo := k) ?_ hak v
      simp [risingFrom, hr]
    · split
      · next hak => exact read_consCell_same (lo := k + 1) hr.2 (by omega) v
      · next hak => simp [Memory.read, show k ≠ a by omega, ih hr.2]

theorem read_write_same {m : Memory} (h : m.wf = true) (a : Nat) (v : Byte) :
    Memory.read (m.write a v) a = v :=
  read_write_same_from h a v

theorem risingFrom_mono {lo lo' : Nat} {m : Memory} (h : risingFrom lo m = true) (hl : lo' ≤ lo) :
    risingFrom lo' m = true := by
  cases m with
  | nil => rfl
  | cons c rest =>
    obtain ⟨k, w⟩ := c
    simp only [risingFrom, Bool.and_eq_true, decide_eq_true_eq] at h ⊢
    exact ⟨⟨⟨by omega, h.1.1.2⟩, h.1.2⟩, h.2⟩

theorem risingFrom_consCell {lo a : Nat} {m : Memory} (h : risingFrom (a + 1) m = true) (hl : lo ≤ a)
    (ha : a < 65536) (v : Byte) : risingFrom lo (consCell a v m) = true := by
  unfold consCell
  split
  · exact risingFrom_mono h (by omega)
  · next hv => simp [risingFrom, hl, ha, hv, h]

theorem risingFrom_write {lo : Nat} {m : Memory} (h : risingFrom lo m = true) {a : Nat} (hl : lo ≤ a)
    (ha : a < 65536) (v : Byte) : risingFrom lo (m.write a v) = true := by
  induction m generalizing lo with
  | nil => exact risingFrom_consCell rfl hl ha v
  | cons c rest ih =>
    obtain ⟨k, w⟩ := c
    have hr := h
    simp only [risingFrom, Bool.and_eq_true, decide_eq_true_eq] at hr
    simp only [Memory.write]
    split
    · next hak =>
      refine risingFrom_consCell ?_ hl ha v
      simp only [risingFrom, Bool.and_eq_true, decide_eq_true_eq]
      exact ⟨⟨⟨by omega, hr.1.1.2⟩, hr.1.2⟩, hr.2⟩
    · split
      · next hak =>
        subst hak
        exact risingFrom_consCell hr.2 hl ha v
      · next h1 h2 =>
        simp only [risingFrom, Bool.and_eq_true, decide_eq_true_eq]
        exact ⟨⟨⟨hr.1.1.1, hr.1.1.2⟩, hr.1.2⟩, ih hr.2 (by omega)⟩

/-- Every write keeps the canonical form. -/
theorem write_wf {m : Memory} (h : m.wf = true) {a : Nat} (ha : a < 65536) (v : Byte) :
    Memory.wf (m.write a v) = true :=
  risingFrom_write h (Nat.zero_le a) ha v

end Sys2Proof.Laws
end

