-- ==== Sys2Proof/Laws/State.lean ====
section
/-! SUPPORT. One lemma per field per update, so that no later proof unfolds a record update. -/

namespace Sys2Proof.Laws

open Sys2Proof.Machine

/-! ## writeByte -/

@[simp] theorem writeByte_a (k : Addr) (v : Byte) (s : State) : (writeByte k v s).a = s.a := rfl
@[simp] theorem writeByte_x (k : Addr) (v : Byte) (s : State) : (writeByte k v s).x = s.x := rfl
@[simp] theorem writeByte_y (k : Addr) (v : Byte) (s : State) : (writeByte k v s).y = s.y := rfl
@[simp] theorem writeByte_sp (k : Addr) (v : Byte) (s : State) : (writeByte k v s).sp = s.sp := rfl
@[simp] theorem writeByte_pc (k : Addr) (v : Byte) (s : State) : (writeByte k v s).pc = s.pc := rfl
@[simp] theorem writeByte_flags (k : Addr) (v : Byte) (s : State) : (writeByte k v s).flags = s.flags := rfl
@[simp] theorem writeByte_mem (k : Addr) (v : Byte) (s : State) :
    (writeByte k v s).mem = s.mem.write k.toNat v := rfl

/-! ## advancePC and setPC -/

@[simp] theorem advancePC_a (n : Nat) (s : State) : (advancePC n s).a = s.a := rfl
@[simp] theorem advancePC_x (n : Nat) (s : State) : (advancePC n s).x = s.x := rfl
@[simp] theorem advancePC_y (n : Nat) (s : State) : (advancePC n s).y = s.y := rfl
@[simp] theorem advancePC_sp (n : Nat) (s : State) : (advancePC n s).sp = s.sp := rfl
@[simp] theorem advancePC_pc (n : Nat) (s : State) : (advancePC n s).pc = s.pc + BitVec.ofNat 16 n := rfl
@[simp] theorem advancePC_flags (n : Nat) (s : State) : (advancePC n s).flags = s.flags := rfl
@[simp] theorem advancePC_mem (n : Nat) (s : State) : (advancePC n s).mem = s.mem := rfl

@[simp] theorem setPC_a (t : Addr) (s : State) : (setPC t s).a = s.a := rfl
@[simp] theorem setPC_x (t : Addr) (s : State) : (setPC t s).x = s.x := rfl
@[simp] theorem setPC_y (t : Addr) (s : State) : (setPC t s).y = s.y := rfl
@[simp] theorem setPC_sp (t : Addr) (s : State) : (setPC t s).sp = s.sp := rfl
@[simp] theorem setPC_pc (t : Addr) (s : State) : (setPC t s).pc = t := rfl
@[simp] theorem setPC_flags (t : Addr) (s : State) : (setPC t s).flags = s.flags := rfl
@[simp] theorem setPC_mem (t : Addr) (s : State) : (setPC t s).mem = s.mem := rfl

/-! ## setNZ and setFlag -/

@[simp] theorem setNZ_a (v : Byte) (s : State) : (setNZ v s).a = s.a := rfl
@[simp] theorem setNZ_x (v : Byte) (s : State) : (setNZ v s).x = s.x := rfl
@[simp] theorem setNZ_y (v : Byte) (s : State) : (setNZ v s).y = s.y := rfl
@[simp] theorem setNZ_sp (v : Byte) (s : State) : (setNZ v s).sp = s.sp := rfl
@[simp] theorem setNZ_pc (v : Byte) (s : State) : (setNZ v s).pc = s.pc := rfl
@[simp] theorem setNZ_flags (v : Byte) (s : State) : (setNZ v s).flags = s.flags.setNZ v := rfl
@[simp] theorem setNZ_mem (v : Byte) (s : State) : (setNZ v s).mem = s.mem := rfl

@[simp] theorem setFlag_a (f : Flag) (q : Bool) (s : State) : (setFlag f q s).a = s.a := rfl
@[simp] theorem setFlag_x (f : Flag) (q : Bool) (s : State) : (setFlag f q s).x = s.x := rfl
@[simp] theorem setFlag_y (f : Flag) (q : Bool) (s : State) : (setFlag f q s).y = s.y := rfl
@[simp] theorem setFlag_sp (f : Flag) (q : Bool) (s : State) : (setFlag f q s).sp = s.sp := rfl
@[simp] theorem setFlag_pc (f : Flag) (q : Bool) (s : State) : (setFlag f q s).pc = s.pc := rfl
@[simp] theorem setFlag_flags (f : Flag) (q : Bool) (s : State) : (setFlag f q s).flags = s.flags.set f q := rfl
@[simp] theorem setFlag_mem (f : Flag) (q : Bool) (s : State) : (setFlag f q s).mem = s.mem := rfl

/-! ## The flags themselves -/

@[simp] theorem flags_setNZ_z (v : Byte) (f : Flags) : (f.setNZ v).z = decide (v = 0#8) := rfl
@[simp] theorem flags_setNZ_n (v : Byte) (f : Flags) : (f.setNZ v).n = v.getLsbD 7 := rfl
@[simp] theorem flags_setNZ_v (v : Byte) (f : Flags) : (f.setNZ v).v = f.v := rfl
@[simp] theorem flags_setNZ_r (v : Byte) (f : Flags) : (f.setNZ v).r = f.r := rfl
@[simp] theorem flags_setNZ_b (v : Byte) (f : Flags) : (f.setNZ v).b = f.b := rfl
@[simp] theorem flags_setNZ_d (v : Byte) (f : Flags) : (f.setNZ v).d = f.d := rfl
@[simp] theorem flags_setNZ_i (v : Byte) (f : Flags) : (f.setNZ v).i = f.i := rfl
@[simp] theorem flags_setNZ_c (v : Byte) (f : Flags) : (f.setNZ v).c = f.c := rfl

theorem get_set_same (g : Flag) (q : Bool) (f : Flags) : (f.set g q).get g = q := by
  cases g <;> rfl

theorem get_set_ne {g h : Flag} (q : Bool) (f : Flags) (hne : h ≠ g) : (f.set g q).get h = f.get h := by
  cases g <;> cases h <;> first | rfl | exact absurd rfl hne

theorem get_setNZ_ne {g : Flag} (v : Byte) (f : Flags) (hz : g ≠ .z) (hn : g ≠ .n) :
    (f.setNZ v).get g = f.get g := by
  cases g <;> first | rfl | exact absurd rfl hz | exact absurd rfl hn

/-! ## setReg -/

@[simp] theorem setReg_sp (r : Reg) (v : Byte) (s : State) : (setReg r v s).sp = s.sp := by cases r <;> rfl
@[simp] theorem setReg_pc (r : Reg) (v : Byte) (s : State) : (setReg r v s).pc = s.pc := by cases r <;> rfl
@[simp] theorem setReg_flags (r : Reg) (v : Byte) (s : State) : (setReg r v s).flags = s.flags := by
  cases r <;> rfl
@[simp] theorem setReg_mem (r : Reg) (v : Byte) (s : State) : (setReg r v s).mem = s.mem := by cases r <;> rfl

@[simp] theorem getReg_setReg_same (r : Reg) (v : Byte) (s : State) : getReg r (setReg r v s) = v := by
  cases r <;> rfl

theorem getReg_setReg_ne {r q : Reg} (v : Byte) (s : State) (h : q ≠ r) :
    getReg q (setReg r v s) = getReg q s := by
  cases r <;> cases q <;> first | rfl | exact absurd rfl h

@[simp] theorem getReg_writeByte (r : Reg) (k : Addr) (v : Byte) (s : State) :
    getReg r (writeByte k v s) = getReg r s := by cases r <;> rfl
@[simp] theorem getReg_advancePC (r : Reg) (n : Nat) (s : State) : getReg r (advancePC n s) = getReg r s := by
  cases r <;> rfl
@[simp] theorem getReg_setPC (r : Reg) (t : Addr) (s : State) : getReg r (setPC t s) = getReg r s := by
  cases r <;> rfl
@[simp] theorem getReg_setNZ (r : Reg) (v : Byte) (s : State) : getReg r (setNZ v s) = getReg r s := by
  cases r <;> rfl
@[simp] theorem getReg_setFlag (r : Reg) (f : Flag) (q : Bool) (s : State) :
    getReg r (setFlag f q s) = getReg r s := by cases r <;> rfl

/-! ## Reading through an update that leaves memory alone -/

@[simp] theorem readByte_setReg (k : Addr) (r : Reg) (v : Byte) (s : State) :
    readByte k (setReg r v s) = readByte k s := by cases r <;> rfl
@[simp] theorem readByte_advancePC (k : Addr) (n : Nat) (s : State) :
    readByte k (advancePC n s) = readByte k s := rfl
@[simp] theorem readByte_setPC (k t : Addr) (s : State) : readByte k (setPC t s) = readByte k s := rfl
@[simp] theorem readByte_setNZ (k : Addr) (v : Byte) (s : State) :
    readByte k (setNZ v s) = readByte k s := rfl
@[simp] theorem readByte_setFlag (k : Addr) (f : Flag) (q : Bool) (s : State) :
    readByte k (setFlag f q s) = readByte k s := rfl

end Sys2Proof.Laws
end

