-- ==== Sys2Proof/Laws/Ops.lean ====
section
/-! SUPPORT. For each shared operation, one lemma that says everything it does; provers cite it instead of
unfolding the operation. -/

namespace Sys2Proof.Laws

open Sys2Proof.Machine

/-! ## Bytes of memory -/

theorem readByte_writeByte_ne {k j : Addr} (v : Byte) (s : State) (h : j ≠ k) :
    readByte j (writeByte k v s) = readByte j s :=
  read_write_ne s.mem k.toNat j.toNat v (fun e => h (BitVec.eq_of_toNat_eq e))

theorem readByte_writeByte_same {s : State} (h : s.mem.wf = true) (k : Addr) (v : Byte) :
    readByte k (writeByte k v s) = v :=
  read_write_same h k.toNat v

theorem writeByte_wf {s : State} (h : s.mem.wf = true) (k : Addr) (v : Byte) :
    (writeByte k v s).mem.wf = true :=
  write_wf h k.isLt v

/-- `storeBytes` changes memory alone, and keeps its canonical form. -/
theorem storeBytes_effect (bytes : List Byte) (k : Addr) (s : State) :
    (∀ r, getReg r (storeBytes bytes k s) = getReg r s)
    ∧ (storeBytes bytes k s).sp = s.sp ∧ (storeBytes bytes k s).pc = s.pc
    ∧ (storeBytes bytes k s).flags = s.flags
    ∧ (s.mem.wf = true → (storeBytes bytes k s).mem.wf = true) := by
  induction bytes generalizing k s with
  | nil => simp [storeBytes]
  | cons b rest ih =>
    obtain ⟨h1, h2, h3, h4, h5⟩ := ih (k + 1#16) (writeByte k b s)
    exact ⟨fun r => (h1 r).trans (getReg_writeByte r k b s), h2, h3, h4, fun h => h5 (writeByte_wf h k b)⟩

/-! ## The families' common rules -/

theorem loadReg_effect (r : Reg) (src : Source) (s : State) :
    getReg r (loadReg r src s) = sourceValue src s
    ∧ (∀ q, q ≠ r → getReg q (loadReg r src s) = getReg q s)
    ∧ (loadReg r src s).flags = s.flags.setNZ (sourceValue src s)
    ∧ (loadReg r src s).sp = s.sp
    ∧ (loadReg r src s).pc = s.pc + BitVec.ofNat 16 src.mode.nbytes
    ∧ (loadReg r src s).mem = s.mem := by
  refine ⟨by simp [loadReg], fun q h => ?_, ?_, ?_, ?_, ?_⟩
  · simp [loadReg, getReg_setReg_ne _ _ h]
  all_goals simp [loadReg]

theorem storeReg_effect (r : Reg) (m : MemOperand) (s : State) :
    (∀ q, getReg q (storeReg r m s) = getReg q s)
    ∧ (storeReg r m s).flags = s.flags
    ∧ (storeReg r m s).sp = s.sp
    ∧ (storeReg r m s).pc = s.pc + BitVec.ofNat 16 m.mode.nbytes
    ∧ (storeReg r m s).mem = s.mem.write (effectiveAddress m s).toNat (getReg r s) := by
  refine ⟨fun q => ?_, rfl, rfl, rfl, rfl⟩
  simp [storeReg]

theorem transferReg_effect (q : Bool) (src dst : Reg) (s : State) :
    getReg dst (transferReg q src dst s) = getReg src s
    ∧ (∀ r, r ≠ dst → getReg r (transferReg q src dst s) = getReg r s)
    ∧ (transferReg q src dst s).flags = (if q then s.flags.setNZ (getReg src s) else s.flags)
    ∧ (transferReg q src dst s).sp = s.sp
    ∧ (transferReg q src dst s).pc = s.pc + 1#16
    ∧ (transferReg q src dst s).mem = s.mem := by
  refine ⟨?_, fun r h => ?_, ?_, ?_, ?_, ?_⟩
  · cases q <;> simp [transferReg]
  · cases q <;> simp [transferReg, getReg_setReg_ne _ _ h]
  all_goals cases q <;> simp [transferReg, Mode.nbytes]

theorem addToReg_effect (d : Byte) (r : Reg) (s : State) :
    getReg r (addToReg d r s) = getReg r s + d
    ∧ (∀ q, q ≠ r → getReg q (addToReg d r s) = getReg q s)
    ∧ (addToReg d r s).flags = s.flags.setNZ (getReg r s + d)
    ∧ (addToReg d r s).sp = s.sp
    ∧ (addToReg d r s).pc = s.pc + 1#16
    ∧ (addToReg d r s).mem = s.mem := by
  refine ⟨by simp [addToReg], fun q h => ?_, ?_, ?_, ?_, ?_⟩
  · simp [addToReg, getReg_setReg_ne _ _ h]
  all_goals simp [addToReg, Mode.nbytes]

theorem assignFlag_effect (f : Flag) (q : Bool) (s : State) :
    (∀ r, getReg r (assignFlag f q s) = getReg r s)
    ∧ (assignFlag f q s).flags = s.flags.set f q
    ∧ (assignFlag f q s).sp = s.sp
    ∧ (assignFlag f q s).pc = s.pc + 1#16
    ∧ (assignFlag f q s).mem = s.mem := by
  refine ⟨fun r => ?_, rfl, rfl, rfl, rfl⟩
  simp [assignFlag]

end Sys2Proof.Laws
end

