-- ==== Sys2Proof/Laws/Exec.lean ====
section
/-! SUPPORT. Once and for all, what an instruction can do: its shape, with the footprint of that shape. Claims about
all instructions go by cases on `exec_shape`, nine cases instead of forty-nine. -/

namespace Sys2Proof.Laws

open Sys2Proof.Machine

/-- A load's source as the operand of its instruction. -/
def sourceOperand : Source → Operand
  | .immediate b1 => .immediate b1
  | .memory m => .memory m

@[simp] theorem sourceOperand_mode (src : Source) : (sourceOperand src).mode = src.mode := by
  cases src <;> rfl

/-- How `exec` answers on an instruction, from every state, and what the footprint tables of Safety.lean say of
that instruction. -/
inductive Shape : Instr → (State → StepOutcome) → Prop where
  | load {i : Instr} (r : Reg) (src : Source) (hop : i.operand = sourceOperand src)
      (hread : regsRead i = indexOf src.mode) (hreg : regsWritten i.mnemonic = [r])
      (hflag : flagsWritten i.mnemonic = [.z, .n]) (huse : dataUse i.mnemonic = .reads) :
      Shape i (fun s => .next (loadReg r src s))
  | store {i : Instr} (r : Reg) (m : MemOperand) (hop : i.operand = .memory m)
      (hread : regsRead i = r :: indexOf m.mode) (hreg : regsWritten i.mnemonic = [])
      (hflag : flagsWritten i.mnemonic = []) (huse : dataUse i.mnemonic = .writes r) :
      Shape i (fun s => .next (storeReg r m s))
  | transfer {i : Instr} (src dst : Reg) (hne : src ≠ dst) (hop : i.operand = .implied)
      (hread : regsRead i = [src]) (hreg : regsWritten i.mnemonic = [dst])
      (hflag : flagsWritten i.mnemonic = []) :
      Shape i (fun s => .next (transferReg modelParams.transferSetsNZ src dst s))
  | add {i : Instr} (d : Byte) (r : Reg) (hop : i.operand = .implied)
      (hread : regsRead i = [r]) (hreg : regsWritten i.mnemonic = [r])
      (hflag : flagsWritten i.mnemonic = [.z, .n]) :
      Shape i (fun s => .next (addToReg d r s))
  | clear {i : Instr} (f : Flag) (hf : f = .c ∨ f = .i ∨ f = .d ∨ f = .v) (hop : i.operand = .implied)
      (hread : regsRead i = []) (hreg : regsWritten i.mnemonic = [])
      (hflag : flagsWritten i.mnemonic = [f]) :
      Shape i (fun s => .next (assignFlag f false s))
  | set {i : Instr} (f : Flag) (hf : f = .c ∨ f = .i ∨ f = .d) (hop : i.operand = .implied)
      (hread : regsRead i = []) (hreg : regsWritten i.mnemonic = [])
      (hflag : flagsWritten i.mnemonic = [f]) :
      Shape i (fun s => .next (assignFlag f true s))
  | nop : Shape .nop (fun s => .next (advancePC 1 s))
  | jump (target : Addr) : Shape (.jmpAbsolute target) (fun s => .next (setPC target s))
  | unimplemented {i : Instr} (op : Byte) (hmode : i.operand.mode.unimplemented = true) :
      Shape i (fun s => .fault (.unimplementedMode op s.pc))

theorem exec_shape (i : Instr) : Shape i (exec i) := by
  cases i with
  | ldaImmediate b1 => exact Shape.load .a (.immediate b1) rfl rfl rfl rfl rfl
  | ldaZeroPage b1 => exact Shape.load .a (.memory (.zeroPage b1)) rfl rfl rfl rfl rfl
  | ldaZeroPageX b1 => exact Shape.load .a (.memory (.zeroPageX b1)) rfl rfl rfl rfl rfl
  | ldaAbsolute base => exact Shape.load .a (.memory (.absolute base)) rfl rfl rfl rfl rfl
  | ldaAbsoluteX base => exact Shape.load .a (.memory (.absoluteX base)) rfl rfl rfl rfl rfl
  | ldaAbsoluteY base => exact Shape.load .a (.memory (.absoluteY base)) rfl rfl rfl rfl rfl
  | ldaIndirectX b1 => exact Shape.unimplemented _ rfl
  | ldaIndirectY b1 => exact Shape.unimplemented _ rfl
  | ldxImmediate b1 => exact Shape.load .x (.immediate b1) rfl rfl rfl rfl rfl
  | ldxZeroPage b1 => exact Shape.load .x (.memory (.zeroPage b1)) rfl rfl rfl rfl rfl
  | ldxZeroPageY b1 => exact Shape.load .x (.memory (.zeroPageY b1)) rfl rfl rfl rfl rfl
  | ldxAbsolute base => exact Shape.load .x (.memory (.absolute base)) rfl rfl rfl rfl rfl
  | ldxAbsoluteY base => exact Shape.load .x (.memory (.absoluteY base)) rfl rfl rfl rfl rfl
  | ldyImmediate b1 => exact Shape.load .y (.immediate b1) rfl rfl rfl rfl rfl
  | ldyZeroPage b1 => exact Shape.load .y (.memory (.zeroPage b1)) rfl rfl rfl rfl rfl
  | ldyZeroPageX b1 => exact Shape.load .y (.memory (.zeroPageX b1)) rfl rfl rfl rfl rfl
  | ldyAbsolute base => exact Shape.load .y (.memory (.absolute base)) rfl rfl rfl rfl rfl
  | ldyAbsoluteX base => exact Shape.load .y (.memory (.absoluteX base)) rfl rfl rfl rfl rfl
  | staZeroPage b1 => exact Shape.store .a (.zeroPage b1) rfl rfl rfl rfl rfl
  | staZeroPageX b1 => exact Shape.store .a (.zeroPageX b1) rfl rfl rfl rfl rfl
  | staAbsolute base => exact Shape.store .a (.absolute base) rfl rfl rfl rfl rfl
  | staAbsoluteX base => exact Shape.store .a (.absoluteX base) rfl rfl rfl rfl rfl
  | staAbsoluteY base => exact Shape.store .a (.absoluteY base) rfl rfl rfl rfl rfl
  | staIndirectX b1 => exact Shape.unimplemented _ rfl
  | staIndirectY b1 => exact Shape.unimplemented _ rfl
  | stxZeroPage b1 => exact Shape.store .x (.zeroPage b1) rfl rfl rfl rfl rfl
  | stxZeroPageY b1 => exact Shape.store .x (.zeroPageY b1) rfl rfl rfl rfl rfl
  | stxAbsolute base => exact Shape.store .x (.absolute base) rfl rfl rfl rfl rfl
  | styZeroPage b1 => exact Shape.store .y (.zeroPage b1) rfl rfl rfl rfl rfl
  | styZeroPageX b1 => exact Shape.store .y (.zeroPageX b1) rfl rfl rfl rfl rfl
  | styAbsolute base => exact Shape.store .y (.absolute base) rfl rfl rfl rfl rfl
  | tax => exact Shape.transfer .a .x (by decide) rfl rfl rfl rfl
  | txa => exact Shape.transfer .x .a (by decide) rfl rfl rfl rfl
  | tay => exact Shape.transfer .a .y (by decide) rfl rfl rfl rfl
  | tya => exact Shape.transfer .y .a (by decide) rfl rfl rfl rfl
  | inx => exact Shape.add 1#8 .x rfl rfl rfl rfl
  | iny => exact Shape.add 1#8 .y rfl rfl rfl rfl
  | dex => exact Shape.add 255#8 .x rfl rfl rfl rfl
  | dey => exact Shape.add 255#8 .y rfl rfl rfl rfl
  | incA => exact Shape.add 1#8 .a rfl rfl rfl rfl
  | clc => exact Shape.clear .c (by decide) rfl rfl rfl rfl
  | sec => exact Shape.set .c (by decide) rfl rfl rfl rfl
  | cli => exact Shape.clear .i (by decide) rfl rfl rfl rfl
  | sei => exact Shape.set .i (by decide) rfl rfl rfl rfl
  | cld => exact Shape.clear .d (by decide) rfl rfl rfl rfl
  | sed => exact Shape.set .d (by decide) rfl rfl rfl rfl
  | clv => exact Shape.clear .v (by decide) rfl rfl rfl rfl
  | nop => exact Shape.nop
  | jmpAbsolute target => exact Shape.jump target

end Sys2Proof.Laws
end

