-- ==== Sys2Proof/Laws/PerInstr.lean ====
section
/-! SUPPORT. Statements about every instruction as syntax, one lemma for each constructor. -/

namespace Sys2Proof.Laws

/-- An instruction's encoding is as long as its entry's `nbytes` (spec 30_encoding.md R80, R83). -/
def EncodedLength.Statement (i : Instr) : Prop :=
  ∀ p, (encodeWith p i).length = i.entry.nbytes

theorem EncodedLength.ldaImmediate (b1 : Byte) : EncodedLength.Statement (.ldaImmediate b1) := fun _ => rfl
theorem EncodedLength.ldaZeroPage (b1 : Byte) : EncodedLength.Statement (.ldaZeroPage b1) := fun _ => rfl
theorem EncodedLength.ldaZeroPageX (b1 : Byte) : EncodedLength.Statement (.ldaZeroPageX b1) := fun _ => rfl
theorem EncodedLength.ldaAbsolute (base : Addr) : EncodedLength.Statement (.ldaAbsolute base) := fun _ => rfl
theorem EncodedLength.ldaAbsoluteX (base : Addr) : EncodedLength.Statement (.ldaAbsoluteX base) := fun _ => rfl
theorem EncodedLength.ldaAbsoluteY (base : Addr) : EncodedLength.Statement (.ldaAbsoluteY base) := fun _ => rfl
theorem EncodedLength.ldaIndirectX (b1 : Byte) : EncodedLength.Statement (.ldaIndirectX b1) := fun _ => rfl
theorem EncodedLength.ldaIndirectY (b1 : Byte) : EncodedLength.Statement (.ldaIndirectY b1) := fun _ => rfl
theorem EncodedLength.ldxImmediate (b1 : Byte) : EncodedLength.Statement (.ldxImmediate b1) := fun _ => rfl
theorem EncodedLength.ldxZeroPage (b1 : Byte) : EncodedLength.Statement (.ldxZeroPage b1) := fun _ => rfl
theorem EncodedLength.ldxZeroPageY (b1 : Byte) : EncodedLength.Statement (.ldxZeroPageY b1) := fun _ => rfl
theorem EncodedLength.ldxAbsolute (base : Addr) : EncodedLength.Statement (.ldxAbsolute base) := fun _ => rfl
theorem EncodedLength.ldxAbsoluteY (base : Addr) : EncodedLength.Statement (.ldxAbsoluteY base) := fun _ => rfl
theorem EncodedLength.ldyImmediate (b1 : Byte) : EncodedLength.Statement (.ldyImmediate b1) := fun _ => rfl
theorem EncodedLength.ldyZeroPage (b1 : Byte) : EncodedLength.Statement (.ldyZeroPage b1) := fun _ => rfl
theorem EncodedLength.ldyZeroPageX (b1 : Byte) : EncodedLength.Statement (.ldyZeroPageX b1) := fun _ => rfl
theorem EncodedLength.ldyAbsolute (base : Addr) : EncodedLength.Statement (.ldyAbsolute base) := fun _ => rfl
theorem EncodedLength.ldyAbsoluteX (base : Addr) : EncodedLength.Statement (.ldyAbsoluteX base) := fun _ => rfl
theorem EncodedLength.staZeroPage (b1 : Byte) : EncodedLength.Statement (.staZeroPage b1) := fun _ => rfl
theorem EncodedLength.staZeroPageX (b1 : Byte) : EncodedLength.Statement (.staZeroPageX b1) := fun _ => rfl
theorem EncodedLength.staAbsolute (base : Addr) : EncodedLength.Statement (.staAbsolute base) := fun _ => rfl
theorem EncodedLength.staAbsoluteX (base : Addr) : EncodedLength.Statement (.staAbsoluteX base) := fun _ => rfl
theorem EncodedLength.staAbsoluteY (base : Addr) : EncodedLength.Statement (.staAbsoluteY base) := fun _ => rfl
theorem EncodedLength.staIndirectX (b1 : Byte) : EncodedLength.Statement (.staIndirectX b1) := fun _ => rfl
theorem EncodedLength.staIndirectY (b1 : Byte) : EncodedLength.Statement (.staIndirectY b1) := fun _ => rfl
theorem EncodedLength.stxZeroPage (b1 : Byte) : EncodedLength.Statement (.stxZeroPage b1) := fun _ => rfl
theorem EncodedLength.stxZeroPageY (b1 : Byte) : EncodedLength.Statement (.stxZeroPageY b1) := fun _ => rfl
theorem EncodedLength.stxAbsolute (base : Addr) : EncodedLength.Statement (.stxAbsolute base) := fun _ => rfl
theorem EncodedLength.styZeroPage (b1 : Byte) : EncodedLength.Statement (.styZeroPage b1) := fun _ => rfl
theorem EncodedLength.styZeroPageX (b1 : Byte) : EncodedLength.Statement (.styZeroPageX b1) := fun _ => rfl
theorem EncodedLength.styAbsolute (base : Addr) : EncodedLength.Statement (.styAbsolute base) := fun _ => rfl
theorem EncodedLength.tax : EncodedLength.Statement .tax := fun _ => rfl
theorem EncodedLength.txa : EncodedLength.Statement .txa := fun _ => rfl
theorem EncodedLength.tay : EncodedLength.Statement .tay := fun _ => rfl
theorem EncodedLength.tya : EncodedLength.Statement .tya := fun _ => rfl
theorem EncodedLength.inx : EncodedLength.Statement .inx := fun _ => rfl
theorem EncodedLength.iny : EncodedLength.Statement .iny := fun _ => rfl
theorem EncodedLength.dex : EncodedLength.Statement .dex := fun _ => rfl
theorem EncodedLength.dey : EncodedLength.Statement .dey := fun _ => rfl
theorem EncodedLength.incA : EncodedLength.Statement .incA := fun _ => rfl
theorem EncodedLength.clc : EncodedLength.Statement .clc := fun _ => rfl
theorem EncodedLength.sec : EncodedLength.Statement .sec := fun _ => rfl
theorem EncodedLength.cli : EncodedLength.Statement .cli := fun _ => rfl
theorem EncodedLength.sei : EncodedLength.Statement .sei := fun _ => rfl
theorem EncodedLength.cld : EncodedLength.Statement .cld := fun _ => rfl
theorem EncodedLength.sed : EncodedLength.Statement .sed := fun _ => rfl
theorem EncodedLength.clv : EncodedLength.Statement .clv := fun _ => rfl
theorem EncodedLength.nop : EncodedLength.Statement .nop := fun _ => rfl
theorem EncodedLength.jmpAbsolute (target : Addr) : EncodedLength.Statement (.jmpAbsolute target) := fun _ => rfl

end Sys2Proof.Laws
end

