-- ==== Sys2Proof/Laws/Runs.lean ====
section
/-! SUPPORT. The laws of runs: ticks in a row, the end of a run, the host's operations in a row. -/

namespace Sys2Proof.Laws

open Sys2Proof.Machine

/-! ## Ticks in a row -/

@[simp] theorem ticks_zero (s : State) : ticks 0 s = s := rfl

theorem ticks_succ (k : Nat) (s : State) : ticks (k + 1) s = ticks k (tick s) := rfl

theorem ticks_add (j k : Nat) (s : State) : ticks (j + k) s = ticks k (ticks j s) := by
  induction j generalizing s with
  | zero => simp
  | succ j ih => rw [Nat.add_right_comm, ticks_succ, ih, ticks_succ]

/-! ## The end of a run -/

/-- Under any stopping condition a run has at most one end: it is a first index. -/
theorem runEnds_unique {c : StopCondition} {s : State} {j k : Nat} (hj : runEnds c s j) (hk : runEnds c s k) :
    j = k := by
  cases c with
  | afterTicks n => exact Eq.trans hj (Eq.symm hk)
  | pcAt addr =>
    rcases Nat.lt_trichotomy j k with h | h | h
    · exact absurd hj.1 (hk.2 j h)
    · exact h
    · exact absurd hk.1 (hj.2 k h)
  | firstFault =>
    obtain ⟨m, rfl, hm, hm'⟩ := hj
    obtain ⟨n, rfl, hn, hn'⟩ := hk
    rcases Nat.lt_trichotomy m n with h | h | h
    · exact absurd (hn m h) hm'
    · rw [h]
    · exact absurd (hm n h) hn'

/-! ## The host's operations in a row -/

theorem runHostOps_append (xs ys : List HostOp) (s : State) :
    runHostOps (xs ++ ys) s = runHostOps ys (runHostOps xs s) := by
  induction xs generalizing s with
  | nil => rfl
  | cons op xs ih => exact ih _

theorem hostReports_append (xs ys : List HostOp) (s : State) :
    hostReports (xs ++ ys) s = hostReports xs s ++ hostReports ys (runHostOps xs s) := by
  induction xs generalizing s with
  | nil => rfl
  | cons op xs ih => exact congrArg _ (ih _)

/-- An operation that is not one of the driver's leaves the state as it is. -/
theorem applyHostOp_of_not_drives {op : HostOp} (h : op.drives = false) (s : State) : applyHostOp op s = s := by
  cases op <;> first | rfl | cases h

end Sys2Proof.Laws
end

