-- ==== Sys2Proof/Tests/Slice0.lean ====
section
/-! SUPPORT. The model's own tests. Expected results come from outside the model: the words from the encodings of
spec/opcode_table.json, the steps from the vectors of spec/95_test_vectors.md (named after them), the rest from the
rule cited. Then, for each statement with hypotheses, a witness that meets them. -/

namespace Sys2Proof.Tests

open Sys2Proof.Machine Sys2Proof.Claims

/-! ## Decoding: every row of the opcode table by a word written out -/

theorem test_decode_load :
    decodeTableWord 16 0x34A0 = some (.ldyImmediate 0x34#8)
    ∧ decodeTableWord 16 0x34A1 = some (.ldaIndirectX 0x34#8)
    ∧ decodeTableWord 16 0x34A2 = some (.ldxImmediate 0x34#8)
    ∧ decodeTableWord 16 0x34A4 = some (.ldyZeroPage 0x34#8)
    ∧ decodeTableWord 16 0x34A5 = some (.ldaZeroPage 0x34#8)
    ∧ decodeTableWord 16 0x34A6 = some (.ldxZeroPage 0x34#8)
    ∧ decodeTableWord 16 0x34A9 = some (.ldaImmediate 0x34#8)
    ∧ decodeTableWord 24 0x1234AC = some (.ldyAbsolute 0x1234#16)
    ∧ decodeTableWord 24 0x1234AD = some (.ldaAbsolute 0x1234#16)
    ∧ decodeTableWord 24 0x1234AE = some (.ldxAbsolute 0x1234#16)
    ∧ decodeTableWord 16 0x34B1 = some (.ldaIndirectY 0x34#8)
    ∧ decodeTableWord 16 0x34B4 = some (.ldyZeroPageX 0x34#8)
    ∧ decodeTableWord 16 0x34B5 = some (.ldaZeroPageX 0x34#8)
    ∧ decodeTableWord 16 0x34B6 = some (.ldxZeroPageY 0x34#8)
    ∧ decodeTableWord 24 0x1234B9 = some (.ldaAbsoluteY 0x1234#16)
    ∧ decodeTableWord 24 0x1234BC = some (.ldyAbsoluteX 0x1234#16)
    ∧ decodeTableWord 24 0x1234BD = some (.ldaAbsoluteX 0x1234#16)
    ∧ decodeTableWord 24 0x1234BE = some (.ldxAbsoluteY 0x1234#16) := by decide

theorem test_decode_store :
    decodeTableWord 16 0x3481 = some (.staIndirectX 0x34#8)
    ∧ decodeTableWord 16 0x3484 = some (.styZeroPage 0x34#8)
    ∧ decodeTableWord 16 0x3485 = some (.staZeroPage 0x34#8)
    ∧ decodeTableWord 16 0x3486 = some (.stxZeroPage 0x34#8)
    ∧ decodeTableWord 24 0x12348C = some (.styAbsolute 0x1234#16)
    ∧ decodeTableWord 24 0x12348D = some (.staAbsolute 0x1234#16)
    ∧ decodeTableWord 24 0x12348E = some (.stxAbsolute 0x1234#16)
    ∧ decodeTableWord 16 0x3491 = some (.staIndirectY 0x34#8)
    ∧ decodeTableWord 16 0x3494 = some (.styZeroPageX 0x34#8)
    ∧ decodeTableWord 16 0x3495 = some (.staZeroPageX 0x34#8)
    ∧ decodeTableWord 16 0x3496 = some (.stxZeroPageY 0x34#8)
    ∧ decodeTableWord 24 0x123499 = some (.staAbsoluteY 0x1234#16)
    ∧ decodeTableWord 24 0x12349D = some (.staAbsoluteX 0x1234#16) := by decide

theorem test_decode_transfer :
    decodeTableWord 8 0x8A = some .txa
    ∧ decodeTableWord 8 0x98 = some .tya
    ∧ decodeTableWord 8 0xA8 = some .tay
    ∧ decodeTableWord 8 0xAA = some .tax := by decide

theorem test_decode_incdec :
    decodeTableWord 8 0x1A = some .incA
    ∧ decodeTableWord 8 0x88 = some .dey
    ∧ decodeTableWord 8 0xC8 = some .iny
    ∧ decodeTableWord 8 0xCA = some .dex
    ∧ decodeTableWord 8 0xE8 = some .inx := by decide

theorem test_decode_flag :
    decodeTableWord 8 0x18 = some .clc
    ∧ decodeTableWord 8 0x38 = some .sec
    ∧ decodeTableWord 8 0x58 = some .cli
    ∧ decodeTableWord 8 0x78 = some .sei
    ∧ decodeTableWord 8 0xB8 = some .clv
    ∧ decodeTableWord 8 0xD8 = some .cld
    ∧ decodeTableWord 8 0xF8 = some .sed := by decide

theorem test_decode_nop_jmp :
    decodeTableWord 24 0x12344C = some (.jmpAbsolute 0x1234#16)
    ∧ decodeTableWord 8 0xEA = some .nop := by decide

/-- Rows of spec/opcode_table.json: byte, mnemonic, mode, nbytes, advance. -/
def tableFromJson : List (Byte × Entry) :=
  [(0x18#8, ⟨.clc, .implied, 1, true⟩),
   (0x1A#8, ⟨.incA, .implied, 1, true⟩),
   (0x38#8, ⟨.sec, .implied, 1, true⟩),
   (0x4C#8, ⟨.jmp, .absolute, 3, false⟩),
   (0x58#8, ⟨.cli, .implied, 1, true⟩),
   (0x78#8, ⟨.sei, .implied, 1, true⟩),
   (0x81#8, ⟨.sta, .indirectX, 2, true⟩),
   (0x84#8, ⟨.sty, .zeroPage, 2, true⟩),
   (0x85#8, ⟨.sta, .zeroPage, 2, true⟩),
   (0x86#8, ⟨.stx, .zeroPage, 2, true⟩),
   (0x88#8, ⟨.dey, .implied, 1, true⟩),
   (0x8A#8, ⟨.txa, .implied, 1, true⟩),
   (0x8C#8, ⟨.sty, .absolute, 3, true⟩),
   (0x8D#8, ⟨.sta, .absolute, 3, true⟩),
   (0x8E#8, ⟨.stx, .absolute, 3, true⟩),
   (0x91#8, ⟨.sta, .indirectY, 2, true⟩),
   (0x94#8, ⟨.sty, .zeroPageX, 2, true⟩)]
  ++ [(0x95#8, ⟨.sta, .zeroPageX, 2, true⟩),
   (0x96#8, ⟨.stx, .zeroPageY, 2, true⟩),
   (0x98#8, ⟨.tya, .implied, 1, true⟩),
   (0x99#8, ⟨.sta, .absoluteY, 3, true⟩),
   (0x9D#8, ⟨.sta, .absoluteX, 3, true⟩),
   (0xA0#8, ⟨.ldy, .immediate, 2, true⟩),
   (0xA1#8, ⟨.lda, .indirectX, 2, true⟩),
   (0xA2#8, ⟨.ldx, .immediate, 2, true⟩),
   (0xA4#8, ⟨.ldy, .zeroPage, 2, true⟩),
   (0xA5#8, ⟨.lda, .zeroPage, 2, true⟩),
   (0xA6#8, ⟨.ldx, .zeroPage, 2, true⟩),
   (0xA8#8, ⟨.tay, .implied, 1, true⟩),
   (0xA9#8, ⟨.lda, .immediate, 2, true⟩),
   (0xAA#8, ⟨.tax, .implied, 1, true⟩),
   (0xAC#8, ⟨.ldy, .absolute, 3, true⟩),
   (0xAD#8, ⟨.lda, .absolute, 3, true⟩),
   (0xAE#8, ⟨.ldx, .absolute, 3, true⟩)]
  ++ [(0xB1#8, ⟨.lda, .indirectY, 2, true⟩),
   (0xB4#8, ⟨.ldy, .zeroPageX, 2, true⟩),
   (0xB5#8, ⟨.lda, .zeroPageX, 2, true⟩),
   (0xB6#8, ⟨.ldx, .zeroPageY, 2, true⟩),
   (0xB8#8, ⟨.clv, .implied, 1, true⟩),
   (0xB9#8, ⟨.lda, .absoluteY, 3, true⟩),
   (0xBC#8, ⟨.ldy, .absoluteX, 3, true⟩),
   (0xBD#8, ⟨.lda, .absoluteX, 3, true⟩),
   (0xBE#8, ⟨.ldx, .absoluteY, 3, true⟩),
   (0xC8#8, ⟨.iny, .implied, 1, true⟩),
   (0xCA#8, ⟨.dex, .implied, 1, true⟩),
   (0xD8#8, ⟨.cld, .implied, 1, true⟩),
   (0xE8#8, ⟨.inx, .implied, 1, true⟩),
   (0xEA#8, ⟨.nop, .implied, 1, true⟩),
   (0xF8#8, ⟨.sed, .implied, 1, true⟩)]

theorem test_table_rows : (tableFromJson.all fun r => opcodeTable modelParams r.1 == some r.2) = true := by decide

theorem test_table_size : tableFromJson.length = 49 := by decide

theorem test_decode_rest : decode [0xA9#8, 0x01#8, 0xE8#8, 0xC8#8] = .ok (.ldaImmediate 0x01#8, [0xE8#8, 0xC8#8]) := by
  decide

theorem test_decode_unassigned : decode [0xFF#8] = .error (.unassignedOpcode 0xFF#8) := by decide

theorem test_decode_truncated : decode [0x8D#8, 0x00#8] = .error (.missingOperand 0x8D#8) := by decide

theorem test_decode_empty : decode [] = .error .noBytes := by decide

theorem test_encode_jmp : encode (.jmpAbsolute 0x0400#16) = [0x4C#8, 0x00#8, 0x04#8] := by decide

/-! ## Well-formedness: an ill-formed term for each check -/

/-- R185: INC A's opcode may not be LDA Immediate's. -/
theorem test_illformed_opcIncA :
    Instr.wellFormed { modelParams with opcIncA := 0xA9#8 } .incA = false := by decide

/-- R91: without the indirect entries there is no LDA (zp,X). -/
theorem test_illformed_indirect :
    Instr.wellFormed { modelParams with indirectEntriesPresent := false } (.ldaIndirectX 0x20#8) = false := by decide

theorem test_wellformed_default : Instr.wellFormed modelParams (.ldaIndirectX 0x20#8) = true := by decide

/-- R91: the four bytes are then unassigned. -/
theorem test_indirect_absent :
    decodeWith { modelParams with indirectEntriesPresent := false } [0xA1#8, 0x20#8]
      = .error (.unassignedOpcode 0xA1#8) := by decide

/-! ## Reset (V-RST-1) -/

theorem test_reset_flags : State.reset.flags.toP = 0x20#8 := by decide

theorem test_reset_registers : (State.reset.a, State.reset.x, State.reset.y) = (0#8, 0#8, 0#8) := by decide

theorem test_reset_memory_wf : State.reset.mem.wf = true := by decide

/-! ## One step of each instruction, from the spec's vectors -/

def flagsOfP (p : Byte) : Flags :=
  { n := p.getLsbD 7, v := p.getLsbD 6, r := p.getLsbD 5, b := p.getLsbD 4, d := p.getLsbD 3,
    i := p.getLsbD 2, z := p.getLsbD 1, c := p.getLsbD 0 }

/-- A vector's start state: the bytes at `PC`, the registers, the status byte and the listed cells. -/
def vector (bytes : List Byte) (pc : Addr) (a x y p : Byte) (cells : List Host.Cell) : State :=
  loadImage bytes pc
    { a := a, x := x, y := y, sp := 0x5A#8, pc := pc, flags := flagsOfP p,
      mem := cells.foldl (fun m c => Memory.write m c.1 c.2) [] }

/-- What a vector lists: the result, A X Y PC P (and SP) after the tick, the named cells after it, and the
accesses. -/
def seen (cells : List Nat) (s : State) : Option StepResult × List Nat × List Byte × List Access :=
  let t := tick s
  (tickResult s, [t.a.toNat, t.x.toNat, t.y.toNat, t.pc.toNat, t.flags.toP.toNat, t.sp.toNat],
    cells.map t.mem.read, busTrace s)

/-- V-IMM (R110, R131): LDA #$00 -/
theorem test_V_IMM :
    seen []
      (vector [0xA9#8, 0x00#8] 0x0400#16 0x55#8 0x00#8 0x00#8 0x20#8 [])
    = (some (.ok), [0x00, 0x00, 0x00, 0x0402, 0x22, 0x5A],
        [], [.read 0x0400#16, .read 0x0401#16]) := by decide

/-- V-ZP (R111, R132): LDA $10 -/
theorem test_V_ZP :
    seen []
      (vector [0xA5#8, 0x10#8] 0x0400#16 0x00#8 0x00#8 0x00#8 0x20#8 [(0x0010, 0x7F#8), (0x0110, 0xEE#8)])
    = (some (.ok), [0x7F, 0x00, 0x00, 0x0402, 0x20, 0x5A],
        [], [.read 0x0400#16, .read 0x0401#16, .read 0x0010#16]) := by decide

/-- V-ZPX (R112, R133): LDA $10,X -/
theorem test_V_ZPX :
    seen []
      (vector [0xB5#8, 0x10#8] 0x0400#16 0x00#8 0x05#8 0x00#8 0x20#8 [(0x0015, 0x33#8)])
    = (some (.ok), [0x33, 0x05, 0x00, 0x0402, 0x20, 0x5A],
        [], [.read 0x0400#16, .read 0x0401#16, .read 0x0015#16]) := by decide

/-- V-ZPX-WRAP (R112, R133): LDA $FF,X -/
theorem test_V_ZPX_WRAP :
    seen []
      (vector [0xB5#8, 0xFF#8] 0x0400#16 0x00#8 0x02#8 0x00#8 0x20#8 [(0x0001, 0x55#8), (0x0101, 0xAA#8)])
    = (some (.ok), [0x55, 0x02, 0x00, 0x0402, 0x20, 0x5A],
        [], [.read 0x0400#16, .read 0x0401#16, .read 0x0001#16]) := by decide

/-- V-ZPY-WRAP (R113, R141): LDX $F0,Y -/
theorem test_V_ZPY_WRAP :
    seen []
      (vector [0xB6#8, 0xF0#8] 0x0400#16 0x00#8 0x00#8 0x20#8 0x20#8 [(0x0010, 0x42#8), (0x0110, 0x24#8)])
    = (some (.ok), [0x00, 0x42, 0x20, 0x0402, 0x20, 0x5A],
        [], [.read 0x0400#16, .read 0x0401#16, .read 0x0010#16]) := by decide

/-- V-ABS (R114, R134): LDA $1234 -/
theorem test_V_ABS :
    seen []
      (vector [0xAD#8, 0x34#8, 0x12#8] 0x0400#16 0x00#8 0x00#8 0x00#8 0x20#8 [(0x1234, 0x80#8), (0x3412, 0x01#8), (0x0154, 0x02#8)])
    = (some (.ok), [0x80, 0x00, 0x00, 0x0403, 0xA0, 0x5A],
        [], [.read 0x0400#16, .read 0x0401#16, .read 0x0402#16, .read 0x1234#16]) := by decide

/-- V-ABX (R115, R135): LDA $12FF,X -/
theorem test_V_ABX :
    seen []
      (vector [0xBD#8, 0xFF#8, 0x12#8] 0x0400#16 0x00#8 0x01#8 0x00#8 0x20#8 [(0x1300, 0x66#8), (0x1200, 0x77#8)])
    = (some (.ok), [0x66, 0x01, 0x00, 0x0403, 0x20, 0x5A],
        [], [.read 0x0400#16, .read 0x0401#16, .read 0x0402#16, .read 0x1300#16]) := by decide

/-- V-ABX-WRAP (R115, R71): LDA $FFFF,X -/
theorem test_V_ABX_WRAP :
    seen []
      (vector [0xBD#8, 0xFF#8, 0xFF#8] 0x0400#16 0x00#8 0x02#8 0x00#8 0x20#8 [(0x0001, 0x5A#8)])
    = (some (.ok), [0x5A, 0x02, 0x00, 0x0403, 0x20, 0x5A],
        [], [.read 0x0400#16, .read 0x0401#16, .read 0x0402#16, .read 0x0001#16]) := by decide

/-- V-ABY (R116, R136): LDA $2000,Y -/
theorem test_V_ABY :
    seen []
      (vector [0xB9#8, 0x00#8, 0x20#8] 0x0400#16 0x00#8 0x00#8 0xFF#8 0x20#8 [(0x20FF, 0xF0#8)])
    = (some (.ok), [0xF0, 0x00, 0xFF, 0x0403, 0xA0, 0x5A],
        [], [.read 0x0400#16, .read 0x0401#16, .read 0x0402#16, .read 0x20FF#16]) := by decide

/-- V-ABY-WRAP (R116, R143): LDX $FF80,Y -/
theorem test_V_ABY_WRAP :
    seen []
      (vector [0xBE#8, 0x80#8, 0xFF#8] 0x0400#16 0x00#8 0x00#8 0x90#8 0x20#8 [(0x0010, 0x07#8)])
    = (some (.ok), [0x00, 0x07, 0x90, 0x0403, 0x20, 0x5A],
        [], [.read 0x0400#16, .read 0x0401#16, .read 0x0402#16, .read 0x0010#16]) := by decide

/-- V-PCWRAP2 (R108, R106): LDA #$44 -/
theorem test_V_PCWRAP2 :
    seen []
      (vector [0xA9#8, 0x44#8] 0xFFFF#16 0x00#8 0x00#8 0x00#8 0x20#8 [])
    = (some (.ok), [0x44, 0x00, 0x00, 0x0001, 0x20, 0x5A],
        [], [.read 0xFFFF#16, .read 0x0000#16]) := by decide

/-- V-LDX-1 (R139): LDX #$00 -/
theorem test_V_LDX_1 :
    seen []
      (vector [0xA2#8, 0x00#8] 0x0400#16 0x00#8 0x09#8 0x00#8 0x20#8 [])
    = (some (.ok), [0x00, 0x00, 0x00, 0x0402, 0x22, 0x5A],
        [], [.read 0x0400#16, .read 0x0401#16]) := by decide

/-- V-LDX-2 (R140): LDX $20 -/
theorem test_V_LDX_2 :
    seen []
      (vector [0xA6#8, 0x20#8] 0x0400#16 0x00#8 0x00#8 0x00#8 0x20#8 [(0x0020, 0xC0#8)])
    = (some (.ok), [0x00, 0xC0, 0x00, 0x0402, 0xA0, 0x5A],
        [], [.read 0x0400#16, .read 0x0401#16, .read 0x0020#16]) := by decide

/-- V-LDX-3 (R141): LDX $20,Y -/
theorem test_V_LDX_3 :
    seen []
      (vector [0xB6#8, 0x20#8] 0x0400#16 0x00#8 0x00#8 0x03#8 0x20#8 [(0x0023, 0x01#8)])
    = (some (.ok), [0x00, 0x01, 0x03, 0x0402, 0x20, 0x5A],
        [], [.read 0x0400#16, .read 0x0401#16, .read 0x0023#16]) := by decide

/-- V-LDX-4 (R142): LDX $0300 -/
theorem test_V_LDX_4 :
    seen []
      (vector [0xAE#8, 0x00#8, 0x03#8] 0x0400#16 0x00#8 0x01#8 0x00#8 0x20#8 [(0x0300, 0x00#8)])
    = (some (.ok), [0x00, 0x00, 0x00, 0x0403, 0x22, 0x5A],
        [], [.read 0x0400#16, .read 0x0401#16, .read 0x0402#16, .read 0x0300#16]) := by decide

/-- V-LDX-5 (R143): LDX $0300,Y -/
theorem test_V_LDX_5 :
    seen []
      (vector [0xBE#8, 0x00#8, 0x03#8] 0x0400#16 0x00#8 0x00#8 0x10#8 0x20#8 [(0x0310, 0x90#8)])
    = (some (.ok), [0x00, 0x90, 0x10, 0x0403, 0xA0, 0x5A],
        [], [.read 0x0400#16, .read 0x0401#16, .read 0x0402#16, .read 0x0310#16]) := by decide

/-- V-LDY-1 (R144): LDY #$01 -/
theorem test_V_LDY_1 :
    seen []
      (vector [0xA0#8, 0x01#8] 0x0400#16 0x00#8 0x00#8 0x00#8 0x20#8 [])
    = (some (.ok), [0x00, 0x00, 0x01, 0x0402, 0x20, 0x5A],
        [], [.read 0x0400#16, .read 0x0401#16]) := by decide

/-- V-LDY-2 (R145): LDY $30 -/
theorem test_V_LDY_2 :
    seen []
      (vector [0xA4#8, 0x30#8] 0x0400#16 0x00#8 0x00#8 0x07#8 0x20#8 [(0x0030, 0x00#8)])
    = (some (.ok), [0x00, 0x00, 0x00, 0x0402, 0x22, 0x5A],
        [], [.read 0x0400#16, .read 0x0401#16, .read 0x0030#16]) := by decide

/-- V-LDY-3 (R146): LDY $30,X -/
theorem test_V_LDY_3 :
    seen []
      (vector [0xB4#8, 0x30#8] 0x0400#16 0x00#8 0xD0#8 0x00#8 0x20#8 [(0x0000, 0xFE#8)])
    = (some (.ok), [0x00, 0xD0, 0xFE, 0x0402, 0xA0, 0x5A],
        [], [.read 0x0400#16, .read 0x0401#16, .read 0x0000#16]) := by decide

/-- V-LDY-4 (R147): LDY $0310 -/
theorem test_V_LDY_4 :
    seen []
      (vector [0xAC#8, 0x10#8, 0x03#8] 0x0400#16 0x00#8 0x00#8 0x00#8 0x20#8 [(0x0310, 0x12#8)])
    = (some (.ok), [0x00, 0x00, 0x12, 0x0403, 0x20, 0x5A],
        [], [.read 0x0400#16, .read 0x0401#16, .read 0x0402#16, .read 0x0310#16]) := by decide

/-- V-LDY-5 (R148): LDY $0310,X -/
theorem test_V_LDY_5 :
    seen []
      (vector [0xBC#8, 0x10#8, 0x03#8] 0x0400#16 0x00#8 0xF0#8 0x00#8 0x20#8 [])
    = (some (.ok), [0x00, 0xF0, 0xBC, 0x0403, 0xA0, 0x5A],
        [], [.read 0x0400#16, .read 0x0401#16, .read 0x0402#16, .read 0x0400#16]) := by decide

/-- V-LDY-IDX (R148): LDY $0300,X -/
theorem test_V_LDY_IDX :
    seen []
      (vector [0xBC#8, 0x00#8, 0x03#8] 0x0400#16 0x00#8 0x04#8 0x77#8 0x20#8 [(0x0304, 0x88#8)])
    = (some (.ok), [0x00, 0x04, 0x88, 0x0403, 0xA0, 0x5A],
        [], [.read 0x0400#16, .read 0x0401#16, .read 0x0402#16, .read 0x0304#16]) := by decide

/-- V-STA-1 (R151): STA $40 -/
theorem test_V_STA_1 :
    seen [0x0040]
      (vector [0x85#8, 0x40#8] 0x0400#16 0xAB#8 0x00#8 0x00#8 0x23#8 [])
    = (some (.ok), [0xAB, 0x00, 0x00, 0x0402, 0x23, 0x5A],
        [0xAB#8], [.read 0x0400#16, .read 0x0401#16, .write 0x0040#16 0xAB#8]) := by decide

/-- V-STA-2 (R152): STA $FF,X -/
theorem test_V_STA_2 :
    seen [0x0000]
      (vector [0x95#8, 0xFF#8] 0x0400#16 0x00#8 0x01#8 0x00#8 0xA0#8 [(0x0000, 0x77#8)])
    = (some (.ok), [0x00, 0x01, 0x00, 0x0402, 0xA0, 0x5A],
        [0x00#8], [.read 0x0400#16, .read 0x0401#16, .write 0x0000#16 0x00#8]) := by decide

/-- V-STA-3 (R153): STA $0200 -/
theorem test_V_STA_3 :
    seen [0x0200]
      (vector [0x8D#8, 0x00#8, 0x02#8] 0x0400#16 0x80#8 0x00#8 0x00#8 0x20#8 [])
    = (some (.ok), [0x80, 0x00, 0x00, 0x0403, 0x20, 0x5A],
        [0x80#8], [.read 0x0400#16, .read 0x0401#16, .read 0x0402#16, .write 0x0200#16 0x80#8]) := by decide

/-- V-STA-4 (R154): STA $02F0,X -/
theorem test_V_STA_4 :
    seen [0x0310]
      (vector [0x9D#8, 0xF0#8, 0x02#8] 0x0400#16 0x11#8 0x20#8 0x00#8 0x20#8 [])
    = (some (.ok), [0x11, 0x20, 0x00, 0x0403, 0x20, 0x5A],
        [0x11#8], [.read 0x0400#16, .read 0x0401#16, .read 0x0402#16, .write 0x0310#16 0x11#8]) := by decide

/-- V-STA-5 (R155, R71): STA $FFF0,Y -/
theorem test_V_STA_5 :
    seen [0x0010]
      (vector [0x99#8, 0xF0#8, 0xFF#8] 0x0400#16 0x22#8 0x00#8 0x20#8 0x20#8 [])
    = (some (.ok), [0x22, 0x00, 0x20, 0x0403, 0x20, 0x5A],
        [0x22#8], [.read 0x0400#16, .read 0x0401#16, .read 0x0402#16, .write 0x0010#16 0x22#8]) := by decide

/-- V-STX-1 (R158): STX $41 -/
theorem test_V_STX_1 :
    seen [0x0041]
      (vector [0x86#8, 0x41#8] 0x0400#16 0x00#8 0xFE#8 0x00#8 0x20#8 [])
    = (some (.ok), [0x00, 0xFE, 0x00, 0x0402, 0x20, 0x5A],
        [0xFE#8], [.read 0x0400#16, .read 0x0401#16, .write 0x0041#16 0xFE#8]) := by decide

/-- V-STX-2 (R159): STX $F8,Y -/
theorem test_V_STX_2 :
    seen [0x0008]
      (vector [0x96#8, 0xF8#8] 0x0400#16 0x00#8 0x3C#8 0x10#8 0x20#8 [])
    = (some (.ok), [0x00, 0x3C, 0x10, 0x0402, 0x20, 0x5A],
        [0x3C#8], [.read 0x0400#16, .read 0x0401#16, .write 0x0008#16 0x3C#8]) := by decide

/-- V-STX-3 (R160): STX $0201 -/
theorem test_V_STX_3 :
    seen [0x0201]
      (vector [0x8E#8, 0x01#8, 0x02#8] 0x0400#16 0x00#8 0x00#8 0x00#8 0x20#8 [(0x0201, 0xFF#8)])
    = (some (.ok), [0x00, 0x00, 0x00, 0x0403, 0x20, 0x5A],
        [0x00#8], [.read 0x0400#16, .read 0x0401#16, .read 0x0402#16, .write 0x0201#16 0x00#8]) := by decide

/-- V-STY-1 (R161): STY $42 -/
theorem test_V_STY_1 :
    seen [0x0042]
      (vector [0x84#8, 0x42#8] 0x0400#16 0x00#8 0x00#8 0x01#8 0x20#8 [])
    = (some (.ok), [0x00, 0x00, 0x01, 0x0402, 0x20, 0x5A],
        [0x01#8], [.read 0x0400#16, .read 0x0401#16, .write 0x0042#16 0x01#8]) := by decide

/-- V-STY-2 (R162): STY $42,X -/
theorem test_V_STY_2 :
    seen [0x0000]
      (vector [0x94#8, 0x42#8] 0x0400#16 0x00#8 0xBE#8 0x99#8 0x20#8 [])
    = (some (.ok), [0x00, 0xBE, 0x99, 0x0402, 0x20, 0x5A],
        [0x99#8], [.read 0x0400#16, .read 0x0401#16, .write 0x0000#16 0x99#8]) := by decide

/-- V-STY-3 (R163): STY $0202 -/
theorem test_V_STY_3 :
    seen [0x0202]
      (vector [0x8C#8, 0x02#8, 0x02#8] 0x0400#16 0x00#8 0x00#8 0x7F#8 0x20#8 [])
    = (some (.ok), [0x00, 0x00, 0x7F, 0x0403, 0x20, 0x5A],
        [0x7F#8], [.read 0x0400#16, .read 0x0401#16, .read 0x0402#16, .write 0x0202#16 0x7F#8]) := by decide

/-- V-ST-SELF1 (R69, R153): STA $0401 -/
theorem test_V_ST_SELF1 :
    seen [0x0401]
      (vector [0x8D#8, 0x01#8, 0x04#8] 0x0400#16 0xEA#8 0x00#8 0x00#8 0x20#8 [])
    = (some (.ok), [0xEA, 0x00, 0x00, 0x0403, 0x20, 0x5A],
        [0xEA#8], [.read 0x0400#16, .read 0x0401#16, .read 0x0402#16, .write 0x0401#16 0xEA#8]) := by decide

/-- V-TAX-1 (R171): TAX -/
theorem test_V_TAX_1 :
    seen []
      (vector [0xAA#8] 0x0400#16 0x80#8 0x01#8 0x00#8 0x20#8 [])
    = (some (.ok), [0x80, 0x80, 0x00, 0x0401, 0x20, 0x5A],
        [], [.read 0x0400#16]) := by decide

/-- V-TAX-2 (R171): TAX -/
theorem test_V_TAX_2 :
    seen []
      (vector [0xAA#8] 0x0400#16 0x00#8 0x55#8 0x00#8 0xA0#8 [])
    = (some (.ok), [0x00, 0x00, 0x00, 0x0401, 0xA0, 0x5A],
        [], [.read 0x0400#16]) := by decide

/-- V-TXA-1 (R172): TXA -/
theorem test_V_TXA_1 :
    seen []
      (vector [0x8A#8] 0x0400#16 0x00#8 0xFF#8 0x00#8 0x22#8 [])
    = (some (.ok), [0xFF, 0xFF, 0x00, 0x0401, 0x22, 0x5A],
        [], [.read 0x0400#16]) := by decide

/-- V-TAY-1 (R173): TAY -/
theorem test_V_TAY_1 :
    seen []
      (vector [0xA8#8] 0x0400#16 0x42#8 0x00#8 0x00#8 0x23#8 [])
    = (some (.ok), [0x42, 0x00, 0x42, 0x0401, 0x23, 0x5A],
        [], [.read 0x0400#16]) := by decide

/-- V-TYA-1 (R174): TYA -/
theorem test_V_TYA_1 :
    seen []
      (vector [0x98#8] 0x0400#16 0x99#8 0x00#8 0x00#8 0xA0#8 [])
    = (some (.ok), [0x00, 0x00, 0x00, 0x0401, 0xA0, 0x5A],
        [], [.read 0x0400#16]) := by decide

/-- V-INX-1 (R181): INX -/
theorem test_V_INX_1 :
    seen []
      (vector [0xE8#8] 0x0400#16 0x00#8 0xFF#8 0x00#8 0x20#8 [])
    = (some (.ok), [0x00, 0x00, 0x00, 0x0401, 0x22, 0x5A],
        [], [.read 0x0400#16]) := by decide

/-- V-INX-2 (R181): INX -/
theorem test_V_INX_2 :
    seen []
      (vector [0xE8#8] 0x0400#16 0x00#8 0x7F#8 0x00#8 0x20#8 [])
    = (some (.ok), [0x00, 0x80, 0x00, 0x0401, 0xA0, 0x5A],
        [], [.read 0x0400#16]) := by decide

/-- V-INY-1 (R182): INY -/
theorem test_V_INY_1 :
    seen []
      (vector [0xC8#8] 0x0400#16 0x00#8 0x00#8 0xFF#8 0x20#8 [])
    = (some (.ok), [0x00, 0x00, 0x00, 0x0401, 0x22, 0x5A],
        [], [.read 0x0400#16]) := by decide

/-- V-INY-2 (R182): INY -/
theorem test_V_INY_2 :
    seen []
      (vector [0xC8#8] 0x0400#16 0x00#8 0x00#8 0xFE#8 0x20#8 [])
    = (some (.ok), [0x00, 0x00, 0xFF, 0x0401, 0xA0, 0x5A],
        [], [.read 0x0400#16]) := by decide

/-- V-DEX-1 (R183): DEX -/
theorem test_V_DEX_1 :
    seen []
      (vector [0xCA#8] 0x0400#16 0x00#8 0x00#8 0x00#8 0x20#8 [])
    = (some (.ok), [0x00, 0xFF, 0x00, 0x0401, 0xA0, 0x5A],
        [], [.read 0x0400#16]) := by decide

/-- V-DEX-2 (R183): DEX -/
theorem test_V_DEX_2 :
    seen []
      (vector [0xCA#8] 0x0400#16 0x00#8 0x01#8 0x00#8 0x21#8 [])
    = (some (.ok), [0x00, 0x00, 0x00, 0x0401, 0x23, 0x5A],
        [], [.read 0x0400#16]) := by decide

/-- V-DEY-1 (R184): DEY -/
theorem test_V_DEY_1 :
    seen []
      (vector [0x88#8] 0x0400#16 0x00#8 0x00#8 0x00#8 0x20#8 [])
    = (some (.ok), [0x00, 0x00, 0xFF, 0x0401, 0xA0, 0x5A],
        [], [.read 0x0400#16]) := by decide

/-- V-DEY-2 (R184): DEY -/
theorem test_V_DEY_2 :
    seen []
      (vector [0x88#8] 0x0400#16 0x00#8 0x00#8 0x01#8 0x20#8 [])
    = (some (.ok), [0x00, 0x00, 0x00, 0x0401, 0x22, 0x5A],
        [], [.read 0x0400#16]) := by decide

/-- V-INCA-1 (R185): INC A -/
theorem test_V_INCA_1 :
    seen []
      (vector [0x1A#8] 0x0400#16 0xFF#8 0x00#8 0x00#8 0x20#8 [])
    = (some (.ok), [0x00, 0x00, 0x00, 0x0401, 0x22, 0x5A],
        [], [.read 0x0400#16]) := by decide

/-- V-INCA-2 (R185, R30): INC A -/
theorem test_V_INCA_2 :
    seen []
      (vector [0x1A#8] 0x0400#16 0x09#8 0x00#8 0x00#8 0x28#8 [])
    = (some (.ok), [0x0A, 0x00, 0x00, 0x0401, 0x28, 0x5A],
        [], [.read 0x0400#16]) := by decide

/-- V-CLC-1 (R191): CLC -/
theorem test_V_CLC_1 :
    seen []
      (vector [0x18#8] 0x0400#16 0x00#8 0x00#8 0x00#8 0x21#8 [])
    = (some (.ok), [0x00, 0x00, 0x00, 0x0401, 0x20, 0x5A],
        [], [.read 0x0400#16]) := by decide

/-- V-SEC-0 (R192): SEC -/
theorem test_V_SEC_0 :
    seen []
      (vector [0x38#8] 0x0400#16 0x00#8 0x00#8 0x00#8 0x20#8 [])
    = (some (.ok), [0x00, 0x00, 0x00, 0x0401, 0x21, 0x5A],
        [], [.read 0x0400#16]) := by decide

/-- V-SEC-1 (R192): SEC -/
theorem test_V_SEC_1 :
    seen []
      (vector [0x38#8] 0x0400#16 0x00#8 0x00#8 0x00#8 0x21#8 [])
    = (some (.ok), [0x00, 0x00, 0x00, 0x0401, 0x21, 0x5A],
        [], [.read 0x0400#16]) := by decide

/-- V-CLI-0 (R193): CLI -/
theorem test_V_CLI_0 :
    seen []
      (vector [0x58#8] 0x0400#16 0x00#8 0x00#8 0x00#8 0x20#8 [])
    = (some (.ok), [0x00, 0x00, 0x00, 0x0401, 0x20, 0x5A],
        [], [.read 0x0400#16]) := by decide

/-- V-CLI-1 (R193): CLI -/
theorem test_V_CLI_1 :
    seen []
      (vector [0x58#8] 0x0400#16 0x00#8 0x00#8 0x00#8 0x24#8 [])
    = (some (.ok), [0x00, 0x00, 0x00, 0x0401, 0x20, 0x5A],
        [], [.read 0x0400#16]) := by decide

/-- V-SEI-0 (R194): SEI -/
theorem test_V_SEI_0 :
    seen []
      (vector [0x78#8] 0x0400#16 0x00#8 0x00#8 0x00#8 0x20#8 [])
    = (some (.ok), [0x00, 0x00, 0x00, 0x0401, 0x24, 0x5A],
        [], [.read 0x0400#16]) := by decide

/-- V-SEI-1 (R194): SEI -/
theorem test_V_SEI_1 :
    seen []
      (vector [0x78#8] 0x0400#16 0x00#8 0x00#8 0x00#8 0x24#8 [])
    = (some (.ok), [0x00, 0x00, 0x00, 0x0401, 0x24, 0x5A],
        [], [.read 0x0400#16]) := by decide

/-- V-CLD-0 (R195): CLD -/
theorem test_V_CLD_0 :
    seen []
      (vector [0xD8#8] 0x0400#16 0x00#8 0x00#8 0x00#8 0x20#8 [])
    = (some (.ok), [0x00, 0x00, 0x00, 0x0401, 0x20, 0x5A],
        [], [.read 0x0400#16]) := by decide

/-- V-CLD-1 (R195): CLD -/
theorem test_V_CLD_1 :
    seen []
      (vector [0xD8#8] 0x0400#16 0x00#8 0x00#8 0x00#8 0x28#8 [])
    = (some (.ok), [0x00, 0x00, 0x00, 0x0401, 0x20, 0x5A],
        [], [.read 0x0400#16]) := by decide

/-- V-SED-0 (R196): SED -/
theorem test_V_SED_0 :
    seen []
      (vector [0xF8#8] 0x0400#16 0x00#8 0x00#8 0x00#8 0x20#8 [])
    = (some (.ok), [0x00, 0x00, 0x00, 0x0401, 0x28, 0x5A],
        [], [.read 0x0400#16]) := by decide

/-- V-CLV-1 (R197): CLV -/
theorem test_V_CLV_1 :
    seen []
      (vector [0xB8#8] 0x0400#16 0x00#8 0x00#8 0x00#8 0x60#8 [])
    = (some (.ok), [0x00, 0x00, 0x00, 0x0401, 0x20, 0x5A],
        [], [.read 0x0400#16]) := by decide

/-- V-CLC-ALL (R191, R190): CLC -/
theorem test_V_CLC_ALL :
    seen []
      (vector [0x18#8] 0x0400#16 0x00#8 0x00#8 0x00#8 0xEF#8 [])
    = (some (.ok), [0x00, 0x00, 0x00, 0x0401, 0xEE, 0x5A],
        [], [.read 0x0400#16]) := by decide

/-- V-CLV-ALL (R197, R190): CLV -/
theorem test_V_CLV_ALL :
    seen []
      (vector [0xB8#8] 0x0400#16 0x00#8 0x00#8 0x00#8 0xEF#8 [])
    = (some (.ok), [0x00, 0x00, 0x00, 0x0401, 0xAF, 0x5A],
        [], [.read 0x0400#16]) := by decide

/-- V-NOP (R200): NOP -/
theorem test_V_NOP :
    seen []
      (vector [0xEA#8] 0x0400#16 0x01#8 0x02#8 0x03#8 0xA1#8 [])
    = (some (.ok), [0x01, 0x02, 0x03, 0x0401, 0xA1, 0x5A],
        [], [.read 0x0400#16]) := by decide

/-- V-JMP (R205, R106): JMP $1234 -/
theorem test_V_JMP :
    seen []
      (vector [0x4C#8, 0x34#8, 0x12#8] 0x0400#16 0x00#8 0x00#8 0x00#8 0x20#8 [])
    = (some (.ok), [0x00, 0x00, 0x00, 0x1234, 0x20, 0x5A],
        [], [.read 0x0400#16, .read 0x0401#16, .read 0x0402#16]) := by decide

/-- V-JMP-SELF (R205): JMP $0400 -/
theorem test_V_JMP_SELF :
    seen []
      (vector [0x4C#8, 0x00#8, 0x04#8] 0x0400#16 0x00#8 0x00#8 0x00#8 0x20#8 [])
    = (some (.ok), [0x00, 0x00, 0x00, 0x0400, 0x20, 0x5A],
        [], [.read 0x0400#16, .read 0x0401#16, .read 0x0402#16]) := by decide

/-- V-F-FF (R211): (none) -/
theorem test_V_F_FF :
    seen []
      (vector [0xFF#8] 0x0400#16 0x01#8 0x02#8 0x03#8 0x21#8 [])
    = (some (.unrecognizedOpcode 0xFF#8 0x0400#16), [0x01, 0x02, 0x03, 0x0400, 0x21, 0x5A],
        [], [.read 0x0400#16]) := by decide

/-- V-F-00 (R211, R253): (none) -/
theorem test_V_F_00 :
    seen []
      (vector [0x00#8] 0x0400#16 0x00#8 0x00#8 0x00#8 0x20#8 [])
    = (some (.unrecognizedOpcode 0x00#8 0x0400#16), [0x00, 0x00, 0x00, 0x0400, 0x20, 0x5A],
        [], [.read 0x0400#16]) := by decide

/-- V-F-02 (R211): (none) -/
theorem test_V_F_02 :
    seen []
      (vector [0x02#8, 0xEA#8] 0x0400#16 0x00#8 0x00#8 0x00#8 0x20#8 [])
    = (some (.unrecognizedOpcode 0x02#8 0x0400#16), [0x00, 0x00, 0x00, 0x0400, 0x20, 0x5A],
        [], [.read 0x0400#16]) := by decide

/-- V-F-6C (R211): (none) -/
theorem test_V_F_6C :
    seen []
      (vector [0x6C#8, 0x00#8, 0x04#8] 0x0400#16 0x00#8 0x00#8 0x00#8 0x20#8 [])
    = (some (.unrecognizedOpcode 0x6C#8 0x0400#16), [0x00, 0x00, 0x00, 0x0400, 0x20, 0x5A],
        [], [.read 0x0400#16]) := by decide

/-- V-F-E6 (R211): (none) -/
theorem test_V_F_E6 :
    seen []
      (vector [0xE6#8, 0x10#8] 0x0400#16 0x00#8 0x00#8 0x00#8 0x20#8 [(0x0010, 0x05#8)])
    = (some (.unrecognizedOpcode 0xE6#8 0x0400#16), [0x00, 0x00, 0x00, 0x0400, 0x20, 0x5A],
        [], [.read 0x0400#16]) := by decide

/-- V-F-A1 (R212, R137): LDA ($20,X) -/
theorem test_V_F_A1 :
    seen []
      (vector [0xA1#8, 0x20#8] 0x0400#16 0x33#8 0x04#8 0x00#8 0x20#8 [(0x0024, 0x00#8), (0x0025, 0x03#8), (0x0300, 0x99#8)])
    = (some (.unimplementedMode 0xA1#8 0x0400#16), [0x33, 0x04, 0x00, 0x0400, 0x20, 0x5A],
        [], [.read 0x0400#16]) := by decide

/-- V-F-B1 (R212, R138): LDA ($20),Y -/
theorem test_V_F_B1 :
    seen []
      (vector [0xB1#8, 0x20#8] 0x0400#16 0x00#8 0x00#8 0x01#8 0x20#8 [])
    = (some (.unimplementedMode 0xB1#8 0x0400#16), [0x00, 0x00, 0x01, 0x0400, 0x20, 0x5A],
        [], [.read 0x0400#16]) := by decide

/-- V-F-81 (R212, R156): STA ($20,X) -/
theorem test_V_F_81 :
    seen []
      (vector [0x81#8, 0x20#8] 0x0400#16 0x77#8 0x00#8 0x00#8 0x20#8 [(0x0020, 0x00#8), (0x0021, 0x03#8)])
    = (some (.unimplementedMode 0x81#8 0x0400#16), [0x77, 0x00, 0x00, 0x0400, 0x20, 0x5A],
        [], [.read 0x0400#16]) := by decide

/-- V-F-91 (R212, R157): STA ($20),Y -/
theorem test_V_F_91 :
    seen []
      (vector [0x91#8, 0x20#8] 0x0400#16 0x77#8 0x00#8 0x00#8 0x20#8 [])
    = (some (.unimplementedMode 0x91#8 0x0400#16), [0x77, 0x00, 0x00, 0x0400, 0x20, 0x5A],
        [], [.read 0x0400#16]) := by decide

/-- V-F-TOP (R211): (none) -/
theorem test_V_F_TOP :
    seen []
      (vector [0xFF#8] 0xFFFF#16 0x00#8 0x00#8 0x00#8 0x20#8 [])
    = (some (.unrecognizedOpcode 0xFF#8 0xFFFF#16), [0x00, 0x00, 0x00, 0xFFFF, 0x20, 0x5A],
        [], [.read 0xFFFF#16]) := by decide

/-! ## Witnesses: for each statement with hypotheses, a state and operands that meet them -/

/-- Bytes at `PC`, `A = 0x77`, `X = 0x05`, `Y = 0xFF`, `P = 0x20`. -/
def placed (bytes : List Byte) (pc : Addr) : State :=
  vector bytes pc 0x77#8 0x05#8 0xFF#8 0x20#8 []

/-- Every clause `Encodes op …`: each opcode byte stands at some state's `PC`, at the top of memory too. -/
theorem witness_Encodes (op : Byte) : opcodeAt (placed [op] 0x0400#16) = op ∧ opcodeAt (placed [op] 0xFFFF#16) = op :=
  ⟨Laws.readByte_writeByte_same (by decide) _ _, Laws.readByte_writeByte_same (by decide) _ _⟩

theorem witness_UnloadedMemoryIsZeroAndFaults : readByte State.reset.pc State.reset = 0#8 := by decide

/-- An image that wraps, a cell outside it. -/
theorem witness_ImageIsLoadedByteByByte :
    State.reset.mem.wf = true ∧ [0x11#8, 0x22#8].length ≤ 65536
    ∧ ∀ k, k < [0x11#8, 0x22#8].length → 5 ≠ ((0xFFFF#16 : Addr).toNat + k) % 65536 := by decide

theorem witness_WriteChangesOneCell :
    (placed [0xA9#8] 0xFFFF#16).mem.wf = true ∧ (0x0000#16 : Addr) ≠ 0xFFFF#16 := by decide

/-- Two writes in either order. -/
theorem witness_EqualContentsAreEqualMemories :
    (placed [0x11#8, 0x22#8] 0xFFFF#16).mem.wf = true
    ∧ (loadImage [0x11#8] 0xFFFF#16 (placed [0x22#8] 0x0000#16)).mem.wf = true
    ∧ ∀ k, readByte k (placed [0x11#8, 0x22#8] 0xFFFF#16)
        = readByte k (loadImage [0x11#8] 0xFFFF#16 (placed [0x22#8] 0x0000#16)) :=
  ⟨by decide, by decide, fun _ => rfl⟩

theorem witness_DecodeAfterEncode :
    (Instr.staIndirectY 0xFF#8).wellFormed modelParams = true
    ∧ (Instr.incA).wellFormed { modelParams with opcIncA := 0x02#8, indirectEntriesPresent := false } = true := by
  decide

theorem witness_EncodeAfterDecode :
    modelParams.legal = true
    ∧ decodeWith modelParams [0x99#8, 0xFF#8, 0xFF#8, 0x00#8] = .ok (.staAbsoluteY 0xFFFF#16, [0x00#8]) := by decide

theorem witness_EntryLengthFollowsMode :
    opcodeTable modelParams 0x4C#8 = some ⟨.jmp, .absolute, 3, false⟩
    ∧ opcodeTable modelParams 0x81#8 = some ⟨.sta, .indirectX, 2, true⟩ := by decide

theorem witness_UnassignedBytesFault :
    (opcodeAt (placed [0x00#8] 0x0400#16)).toNat ∉ assignedBytes
    ∧ (opcodeAt (placed [0xFF#8] 0xFFFF#16)).toNat ∉ assignedBytes := by decide

theorem witness_IndirectBytesFollowTheSwitch :
    (modelParams.legal = true ∧ modelParams.indirectEntriesPresent = true)
    ∧ ({ modelParams with indirectEntriesPresent := false } : Params).legal = true
    ∧ (0x91#8 : Byte).toNat ∈ [0x81, 0x91, 0xA1, 0xB1] := by decide

theorem witness_ImmediateValueIsTheByteAtItsAddress :
    decode (fetchBytes (placed [0xA9#8, 0x7F#8] 0xFFFF#16)) = .ok (.ldaImmediate 0x7F#8, [])
    ∧ (Instr.ldaImmediate 0x7F#8).operand = .immediate 0x7F#8 := by decide

/-- The premise inside `Stores`, at both ends of memory. -/
theorem witness_Stores :
    (placed [0x8D#8, 0xFF#8, 0xFF#8] 0x0400#16).mem.wf = true
    ∧ (0x0000#16 : Addr) ≠ effectiveAddress (.absolute 0xFFFF#16) (placed [0x8D#8] 0x0400#16)
    ∧ (0xFFFF#16 : Addr) ≠ effectiveAddress (.absoluteX 0xFFFF#16) (placed [0x9D#8] 0x0400#16) := by decide

theorem witness_JumpLandsExactlyOnTarget : opcodeAt (placed [0x4C#8, 0x00#8, 0x04#8] 0xFFFE#16) = 0x4C#8 := by decide

theorem witness_IndirectModesFault :
    ∀ op ∈ [0x81#8, 0x91#8, 0xA1#8, 0xB1#8],
      (opcodeAt (placed [op, 0x20#8] 0x0400#16)).toNat ∈ [0x81, 0x91, 0xA1, 0xB1] := by decide

theorem witness_StepRunsDecodedInstruction :
    decode (fetchBytes (placed [0xBD#8, 0xFF#8, 0x12#8] 0xFFFE#16)) = .ok (.ldaAbsoluteX 0x12FF#16, []) := by decide

theorem witness_StepRunsInstructionEncodedAtPC :
    (Instr.ldaAbsoluteX 0x12FF#16).wellFormed modelParams = true
    ∧ ∀ k (h : k < (encode (.ldaAbsoluteX 0x12FF#16)).length),
        cell (((placed [0xBD#8, 0xFF#8, 0x12#8] 0xFFFE#16).pc.toNat + k) % 65536)
          (placed [0xBD#8, 0xFF#8, 0x12#8] 0xFFFE#16) = (encode (.ldaAbsoluteX 0x12FF#16))[k] := by decide

theorem witness_OpcodeByteDecidesOutcome :
    opcodeTable modelParams (opcodeAt (placed [0x00#8] 0x0400#16)) = none
    ∧ opcodeTable modelParams (opcodeAt (placed [0xB1#8] 0x0400#16)) = some ⟨.lda, .indirectY, 2, true⟩
    ∧ opcodeTable modelParams (opcodeAt (placed [0xEA#8] 0x0400#16)) = some ⟨.nop, .implied, 1, true⟩ := by decide

/-- A three-byte instruction across the top of memory, and a jump. -/
theorem witness_ProgramCounterAdvancesByEntryLength :
    opcodeTable modelParams (opcodeAt (placed [0xAD#8, 0x34#8, 0x12#8] 0xFFFE#16))
      = some ⟨.lda, .absolute, 3, true⟩
    ∧ step (placed [0xAD#8, 0x34#8, 0x12#8] 0xFFFE#16) = .next (tick (placed [0xAD#8, 0x34#8, 0x12#8] 0xFFFE#16))
    ∧ opcodeTable modelParams (opcodeAt (placed [0x4C#8, 0x00#8, 0x04#8] 0x0400#16))
      = some ⟨.jmp, .absolute, 3, false⟩
    ∧ step (placed [0x4C#8, 0x00#8, 0x04#8] 0x0400#16) = .next (tick (placed [0x4C#8, 0x00#8, 0x04#8] 0x0400#16)) :=
  ⟨by decide, rfl, by decide, rfl⟩

/-- A store, with an address beside the stored byte, and a step fault. -/
theorem witness_StepChangesOnlyWhatIsListed :
    exec (.staAbsolute 0x0010#16) (placed [] 0x0400#16)
      = .next { placed [] 0x0400#16 with mem := [(0x0010, 0x77#8)], pc := 0x0403#16 }
    ∧ Reg.x ∉ regsWritten (Instr.staAbsolute 0x0010#16).mnemonic
    ∧ Flag.z ∉ flagsWritten (Instr.staAbsolute 0x0010#16).mnemonic
    ∧ (∀ m r, (Instr.staAbsolute 0x0010#16).operand = .memory m →
        dataUse (Instr.staAbsolute 0x0010#16).mnemonic = .writes r →
        (0x0011#16 : Addr) ≠ effectiveAddress m (placed [] 0x0400#16))
    ∧ step (placed [0xFF#8] 0x0400#16) = .fault (.unrecognizedOpcode 0xFF#8 0x0400#16) :=
  ⟨rfl, by decide, by decide, by intro m r h _; cases h; decide, rfl⟩

theorem witness_ZeroAndNegativeDescribeTheResult :
    regsWritten Instr.iny.mnemonic = [.y] ∧ flagsWritten Instr.iny.mnemonic = [.z, .n]
    ∧ exec .iny (placed [] 0x0400#16)
      = .next { placed [] 0x0400#16 with y := 0x00#8, flags := flagsOfP 0x22#8, pc := 0x0401#16 } :=
  ⟨rfl, rfl, rfl⟩

theorem witness_UnlistedRegistersAreNotRead :
    Reg.y ∉ regsRead (.ldaZeroPageX 0x10#8) ∧ Reg.a ∉ regsRead (.ldaZeroPageX 0x10#8) := by decide

theorem witness_NoInstructionReadsAFlag :
    Flag.c ∉ flagsWritten Instr.inx.mnemonic ∧ Flag.c ∈ flagsWritten Instr.sec.mnemonic
    ∧ exec .sec (placed [] 0x0400#16)
      = .next { placed [] 0x0400#16 with flags := flagsOfP 0x21#8, pc := 0x0401#16 } := ⟨by decide, by decide, rfl⟩

theorem witness_StackPointerIsNeverUsed :
    step (placed [0xEA#8] 0x0400#16) = .next (tick (placed [0xEA#8] 0x0400#16)) :=
  rfl

theorem witness_PortWritesAreTheMemoryChange :
    step (placed [0x8D#8, 0x34#8, 0x12#8] 0x0400#16) = .next (tick (placed [0x8D#8, 0x34#8, 0x12#8] 0x0400#16)) :=
  rfl

/-- Another memory, which agrees on the four cells the load reads and differs elsewhere. -/
theorem witness_StepDependsOnlyOnCellsItReads :
    let s := placed [0xAD#8, 0x34#8, 0x12#8] 0x0400#16
    let mem := Memory.write s.mem 0x0403 0x99#8
    (∀ k, Access.read k ∈ busTrace s → readByte k { s with mem := mem } = readByte k s) ∧ mem ≠ s.mem := by
  refine ⟨fun k hk => ?_, by decide⟩
  have e : busTrace (placed [0xAD#8, 0x34#8, 0x12#8] 0x0400#16)
      = [.read 0x0400#16, .read 0x0401#16, .read 0x0402#16, .read 0x1234#16] := by decide
  rw [e] at hk
  simp only [List.mem_cons, Access.read.injEq, List.not_mem_nil, or_false] at hk
  rcases hk with rfl | rfl | rfl | rfl <;> decide

theorem witness_FaultRepeatsForEver :
    tickResult (placed [0x02#8] 0x0400#16) ≠ some .ok ∧ tickResult (placed [0xA1#8] 0x0400#16) ≠ some .ok := by decide

/-- R205's own example, and a jump across the top of memory. -/
theorem witness_ClosedJumpEndsOnlyByTickCount :
    (let s := placed [0x4C#8, 0x00#8, 0x04#8] 0x0400#16;
      opcodeAt s = 0x4C#8 ∧ operand16 s = s.pc ∧ (0x0403#16 : Addr) ≠ s.pc)
    ∧ (let s := placed [0x4C#8, 0xFE#8, 0xFF#8] 0xFFFE#16;
      opcodeAt s = 0x4C#8 ∧ operand16 s = s.pc) := by decide

/-- Two NOPs across the top of memory, then 0x00; and no NOP at all. -/
theorem witness_StraightLineRunEndsAtFirstUnassignedByte :
    (let s := placed [0xEA#8, 0xEA#8] 0xFFFF#16;
      (∀ k, k < 2 → cell ((s.pc.toNat + k) % 65536) s = 0xEA#8)
        ∧ (cell ((s.pc.toNat + 2) % 65536) s).toNat ∉ assignedBytes)
    ∧ (let s := placed [0xFF#8] 0x0400#16;
      (∀ k, k < 0 → cell ((s.pc.toNat + k) % 65536) s = 0xEA#8)
        ∧ (cell ((s.pc.toNat + 0) % 65536) s).toNat ∉ assignedBytes) := by decide

theorem witness_HostReadsSeeCompletedSteps :
    let s := placed [0x9D#8, 0xFF#8, 0xFF#8] 0x0400#16
    s.mem.wf = true ∧ decode (fetchBytes s) = .ok (.staAbsoluteX 0xFFFF#16, [])
    ∧ (Instr.staAbsoluteX 0xFFFF#16).operand = .memory (.absoluteX 0xFFFF#16)
    ∧ dataUse (Instr.staAbsoluteX 0xFFFF#16).mnemonic = .writes .a := by decide

/-- The last clause: a cell beside the stored one. -/
theorem witness_HostReadsSeeCompletedSteps_other_cell :
    let s := placed [0x9D#8, 0xFF#8, 0xFF#8] 0x0400#16
    ∀ i rest m r, decode (fetchBytes s) = .ok (i, rest) → i.operand = .memory m →
      dataUse i.mnemonic = .writes r → (0x0005#16 : Addr) ≠ effectiveAddress m s := by
  intro s i rest m r hd hm _
  have e : decode (fetchBytes s) = .ok (.staAbsoluteX 0xFFFF#16, []) := by decide
  cases e.symm.trans hd
  cases hm
  decide

/-- R66: a device's two reads of a word that two stores update, between them: half updated. -/
theorem test_device_reads_between_stores :
    hostReports [.tick, .readMemory 0x0010#16, .readMemory 0x0011#16, .tick, .readMemory 0x0011#16]
        (placed [0x85#8, 0x10#8, 0x85#8, 0x11#8] 0x0400#16)
      = [.stepped (some .ok), .byte 0x77#8, .byte 0x00#8, .stepped (some .ok), .byte 0x77#8] := by decide

theorem witness_InvariantHoldsAfterReset : (placed [0x4C#8] 0xFFFF#16).mem.wf = true := by decide

theorem witness_EveryStepKeepsInvariant :
    Invariant (placed [0x8D#8, 0x34#8, 0x12#8] 0x0400#16)
    ∧ step (placed [0x8D#8, 0x34#8, 0x12#8] 0x0400#16) = .next (tick (placed [0x8D#8, 0x34#8, 0x12#8] 0x0400#16)) :=
  ⟨⟨by decide, by decide, by decide, by decide⟩, rfl⟩

theorem witness_EveryReachableStateKeepsInvariant :
    step (placed [0xB8#8] 0x0400#16) = .next (tick (placed [0xB8#8] 0x0400#16)) :=
  rfl

theorem witness_ReachableFlagsAreAllButNegativeZero :
    ¬(true = true ∧ false = true) ∧ ¬(false = true ∧ true = true) := by decide

/-- The six bytes across the top of memory, the cell outside them. -/
theorem witness_StoreThenLoadReturnsValue :
    let s := placed [0x8D#8, 0x34#8, 0x12#8, 0xAD#8, 0x34#8, 0x12#8] 0xFFFD#16
    s.mem.wf = true
    ∧ (∀ k (h : k < 6),
        cell ((s.pc.toNat + k) % 65536) s = [0x8D#8, 0x34#8, 0x12#8, 0xAD#8, 0x34#8, 0x12#8][k])
    ∧ ∀ k, k < 6 → (0x34#8 : Byte).toNat + 256 * (0x12#8 : Byte).toNat ≠ (s.pc.toNat + k) % 65536 := by decide

/-- Stored 0x77 is unassigned; the same store with `A = 0xEA` leaves NOP's byte. -/
theorem witness_StoredByteIsFetchedByNextStep :
    let s := placed [0x8D#8, 0x03#8, 0x04#8] 0x0400#16
    s.mem.wf = true ∧ (Instr.staAbsolute 0x0403#16).operand = .memory (.absolute 0x0403#16)
    ∧ dataUse (Instr.staAbsolute 0x0403#16).mnemonic = .writes .a
    ∧ effectiveAddress (.absolute 0x0403#16) s = (tick s).pc
    ∧ exec (.staAbsolute 0x0403#16) s = .next (tick s)
    ∧ opcodeTable modelParams (getReg .a s) = none
    ∧ exec (.staAbsolute 0x0403#16) (setReg .a 0xEA#8 s) = .next (tick (setReg .a 0xEA#8 s))
    ∧ encode .nop = [getReg .a (setReg .a 0xEA#8 s)] :=
  ⟨by decide, rfl, rfl, by decide, rfl, by decide, rfl, by decide⟩

theorem witness_StoreOntoOwnOperandExecutesAsFetched :
    let s := placed [0x8D#8, 0x01#8, 0x04#8] 0x0400#16
    s.mem.wf = true ∧ opcodeAt s = 0x8D#8 ∧ operand16 s = pcPlus 1 s ∧ step s = .next (tick s)
    ∧ pcPlus 3 s ≠ pcPlus 1 s :=
  ⟨by decide, by decide, by decide, rfl, by decide⟩

theorem witness_PlacedWordIsTheNextInstruction :
    (placed [] 0xFFFF#16).mem.wf = true ∧ decodeTableWord 24 0x12344C = some (.jmpAbsolute 0x1234#16)
    ∧ decodeTableWord 8 0x1234EA = some .nop := by decide

end Sys2Proof.Tests
end

section
/-! Bytes stored at ascending addresses: what every cell holds afterwards. The image load, the placing of a table
word and the fetch all stand on these. -/

namespace Sys2Proof.Proofs

open Sys2Proof.Machine Sys2Proof.Claims Sys2Proof.Laws

/-- The spec's integer address `(base + n) mod 65536` as a machine word. -/
theorem ofNat_toNat_add_mod (base : Addr) (n : Nat) :
    BitVec.ofNat 16 ((base.toNat + n) % 65536) = base + BitVec.ofNat 16 n := by
  apply BitVec.eq_of_toNat_eq
  simp

theorem add_one_add_ofNat (k : Addr) (n : Nat) : k + 1#16 + BitVec.ofNat 16 n = k + BitVec.ofNat 16 (n + 1) := by
  rw [BitVec.add_assoc, ← BitVec.ofNat_add, Nat.add_comm]

/-- Offsets below 65,535 never lead from the next cell around to this one. -/
theorem ne_add_one_add_ofNat (k : Addr) {n : Nat} (h : n < 65535) : k ≠ k + 1#16 + BitVec.ofNat 16 n := by
  rw [add_one_add_ofNat]
  intro e
  have : k.toNat = (k.toNat + (n + 1) % 65536) % 65536 := by simpa using congrArg BitVec.toNat e
  omega

/-- The frame of `storeBytes`: memory alone changes. -/
theorem storeBytes_eq_setMem (bytes : List Byte) (k : Addr) (s : State) :
    storeBytes bytes k s = { s with mem := (storeBytes bytes k s).mem } := by
  induction bytes generalizing k s with
  | nil => rfl
  | cons b rest ih => exact ih (k + 1#16) (writeByte k b s)

theorem storeBytes_wf (bytes : List Byte) (k : Addr) {s : State} (h : s.mem.wf = true) :
    (storeBytes bytes k s).mem.wf = true := by
  obtain ⟨-, -, -, -, hwf⟩ := storeBytes_effect bytes k s
  exact hwf h

/-- A cell that none of the bytes is stored in keeps its content. -/
theorem readByte_storeBytes_ne {bytes : List Byte} {k j : Addr} (s : State)
    (h : ∀ n, n < bytes.length → j ≠ k + BitVec.ofNat 16 n) :
    readByte j (storeBytes bytes k s) = readByte j s := by
  induction bytes generalizing k s with
  | nil => rfl
  | cons b rest ih =>
    have hrest : ∀ n, n < rest.length → j ≠ k + 1#16 + BitVec.ofNat 16 n := fun n hn => by
      rw [add_one_add_ofNat]
      exact h (n + 1) (Nat.succ_lt_succ hn)
    have hk : j ≠ k := by simpa using h 0 (Nat.succ_pos _)
    calc readByte j (storeBytes rest (k + 1#16) (writeByte k b s))
        = readByte j (writeByte k b s) := ih _ hrest
      _ = readByte j s := readByte_writeByte_ne b s hk

/-- The first byte survives the storing of the others, as long as they do not wrap around onto it. -/
theorem readByte_storeBytes_head (b : Byte) {rest : List Byte} (k : Addr) {s : State} (hwf : s.mem.wf = true)
    (hlen : rest.length < 65536) : readByte k (storeBytes (b :: rest) k s) = b := by
  calc readByte k (storeBytes rest (k + 1#16) (writeByte k b s))
      = readByte k (writeByte k b s) :=
        readByte_storeBytes_ne _ fun _ hn => ne_add_one_add_ofNat k (by omega)
    _ = b := readByte_writeByte_same hwf k b

theorem readByte_storeBytes_getElem {bytes : List Byte} (k : Addr) {s : State} (hwf : s.mem.wf = true)
    (hlen : bytes.length ≤ 65536) {n : Nat} (hn : n < bytes.length) :
    readByte (k + BitVec.ofNat 16 n) (storeBytes bytes k s) = bytes[n] := by
  induction bytes generalizing k s n with
  | nil => simp at hn
  | cons b rest ih =>
    simp only [List.length_cons] at hlen hn
    cases n with
    | zero => simpa using readByte_storeBytes_head b k hwf (by omega)
    | succ n =>
      rw [← add_one_add_ofNat]
      exact ih (k + 1#16) (writeByte_wf hwf k b) (by omega) (by omega)

/-- Stored bytes are read back in order. -/
theorem readBytes_storeBytes {bytes : List Byte} (k : Addr) {s : State} (hwf : s.mem.wf = true)
    (hlen : bytes.length ≤ 65536) {n : Nat} (hn : n ≤ bytes.length) :
    readBytes n k (storeBytes bytes k s) = bytes.take n := by
  induction bytes generalizing k s n with
  | nil =>
    obtain rfl : n = 0 := by simpa using hn
    rfl
  | cons b rest ih =>
    simp only [List.length_cons] at hlen hn
    cases n with
    | zero => rfl
    | succ n =>
      rw [List.take_succ_cons, readBytes, readByte_storeBytes_head b k hwf (by omega)]
      exact congrArg (b :: ·) (ih (k + 1#16) (writeByte_wf hwf k b) (by omega) (by omega))

/-- Settles O4: the image load is `storeBytes`, and the spec's integer addresses are its machine words. -/
theorem imageIsLoadedByteByByte : Obligations.ImageIsLoadedByteByByte := by
  intro image base s hwf hlen
  refine ⟨fun k hk => ?_, fun j hj hout => ?_, storeBytes_eq_setMem image base s⟩
  · rw [cell, ofNat_toNat_add_mod]
    exact readByte_storeBytes_getElem base hwf hlen hk
  · refine readByte_storeBytes_ne s fun k hk e => hout k hk ?_
    rw [← ofNat_toNat_add_mod] at e
    have hj' : j % 65536 = (base.toNat + k) % 65536 % 65536 := by simpa using congrArg BitVec.toNat e
    omega

end Sys2Proof.Proofs
end

section
/-! The decoder takes exactly the bytes a fetch reads: the opcode and its `operandCount`. So an instruction whose
bytes were stored at `PC` is the one the step runs. -/

namespace Sys2Proof.Proofs

open Sys2Proof.Machine Sys2Proof.Laws

/-- How many operand bytes a format takes (R81). -/
def formOperandCount : Form → Nat
  | .f1 _ => 0
  | .f2 _ => 1
  | .f3 _ => 2

/-- Every row's format agrees with the length of its entry (R83). -/
theorem entry_nbytes_of_mem_opcodeRows {p : Params} {op : Byte} {f : Form} (h : (op, f) ∈ opcodeRows p) :
    f.entry.nbytes = formOperandCount f + 1 := by
  have hrows : ∀ row ∈ loadRows ++ storeRows ++ registerRows ++ indirectRows ++ [(p.opcIncA, .f1 .incA)],
      row.2.entry.nbytes = formOperandCount row.2 + 1 := by
    simp [loadRows, storeRows, registerRows, indirectRows, Form.entry, formOperandCount, Instr.entry,
      Instr.operand, Operand.mode, MemOperand.mode, Mode.nbytes]
  refine hrows (op, f) ?_
  unfold opcodeRows at h
  split at h
  · exact h
  · simp only [List.append_nil, List.mem_append] at h ⊢
    tauto

theorem operandCount_of_formOf {p : Params} {op : Byte} {f : Form} (h : formOf p op = some f) :
    operandCount p op = formOperandCount f := by
  simp [operandCount, opcodeTable, h, entry_nbytes_of_mem_opcodeRows (mem_of_formOf h)]

/-- Bytes that decode hold the whole operand, and the operand is all the decoder needs of them. -/
theorem decodeWith_take_operandCount {p : Params} {op : Byte} {rest tail : List Byte} {i : Instr}
    (h : decodeWith p (op :: rest) = .ok (i, tail)) :
    operandCount p op ≤ rest.length
    ∧ decodeWith p (op :: rest.take (operandCount p op)) = .ok (i, []) := by
  cases hf : formOf p op with
  | none => simp [decodeWith, hf] at h
  | some f =>
    rw [operandCount_of_formOf hf]
    match f, rest with
    | .f1 j, rest => simp_all [decodeWith, formOperandCount]
    | .f2 mk, [] => simp [decodeWith, hf] at h
    | .f2 mk, b1 :: more => simp_all [decodeWith, formOperandCount]
    | .f3 mk, [] => simp [decodeWith, hf] at h
    | .f3 mk, [b1] => simp [decodeWith, hf] at h
    | .f3 mk, b1 :: b2 :: more => simp_all [decodeWith, formOperandCount]

theorem fetchBytes_eq_readBytes (s : State) :
    fetchBytes s = readBytes (operandCount modelParams (readByte s.pc s) + 1) s.pc s := rfl

theorem step_of_decode_fetchBytes {s : State} {i : Instr} {tail : List Byte}
    (h : decode (fetchBytes s) = .ok (i, tail)) : step s = exec i s := by
  simp [step, h]

/-- Bytes stored at `PC` that decode to `i`, whatever follows it, make the next step run `i`. -/
theorem step_storeBytes_pc {bytes tail : List Byte} {i : Instr} {s : State} (hwf : s.mem.wf = true)
    (hlen : bytes.length ≤ 65536) (h : decode bytes = .ok (i, tail)) :
    step (storeBytes bytes s.pc s) = exec i (storeBytes bytes s.pc s) := by
  cases bytes with
  | nil => simp [decode, decodeWith] at h
  | cons op rest =>
    obtain ⟨hcount, htake⟩ := decodeWith_take_operandCount h
    obtain ⟨-, -, hpc, -, -⟩ := storeBytes_effect (op :: rest) s.pc s
    have hfetch : fetchBytes (storeBytes (op :: rest) s.pc s)
        = op :: rest.take (operandCount modelParams op) := by
      rw [fetchBytes_eq_readBytes, hpc, readByte_storeBytes_head op s.pc hwf (by simpa using hlen),
        readBytes_storeBytes s.pc hwf hlen (by simpa using hcount), List.take_succ_cons]
    exact step_of_decode_fetchBytes (hfetch ▸ htake)

theorem decode_tableBytes_of_decodeTableWord {nbits w : Nat} {i : Instr} (h : decodeTableWord nbits w = some i) :
    ∃ tail, decode (tableBytes nbits w) = .ok (i, tail) := by
  unfold decodeTableWord at h
  split at h
  · next j tail hd =>
    obtain rfl := Option.some.inj h
    exact ⟨tail, hd⟩
  · simp at h

/-- Settles O50: a table word is three bytes stored at `PC`, of which the fetch takes those that decode. -/
theorem placedWordIsTheNextInstruction : Obligations.PlacedWordIsTheNextInstruction := by
  intro s nbits w i hwf hdec
  obtain ⟨tail, htail⟩ := decode_tableBytes_of_decodeTableWord hdec
  have hlen : (tableBytes nbits w).length ≤ 65536 := by simp [tableBytes]
  exact ⟨step_storeBytes_pc hwf hlen htail, storeBytes_eq_setMem _ s.pc s, storeBytes_wf _ s.pc hwf⟩

end Sys2Proof.Proofs
end

section
/-! The status byte shows every flag (R32), so the introspection outputs determine all of the state but memory. -/

namespace Sys2Proof.Proofs

open Sys2Proof.Machine

theorem getElem_bitAt (place : Nat) (q : Bool) {k : Nat} (hk : k < 8) :
    (bitAt place q)[k] = (decide (k = place) && q) := by
  rcases Nat.lt_trichotomy k place with h | rfl | h
  · simp [bitAt, h, h.ne]
  · simp [bitAt]
  · simp [bitAt, h.ne', show ¬ k < place by omega, show k - place ≠ 0 by omega]

/-- Each bit of the status byte is the flag at its place. -/
theorem getElem_toP (f : Flags) :
    f.toP[7] = f.n ∧ f.toP[6] = f.v ∧ f.toP[5] = f.r ∧ f.toP[4] = f.b
    ∧ f.toP[3] = f.d ∧ f.toP[2] = f.i ∧ f.toP[1] = f.z ∧ f.toP[0] = f.c := by
  simp [Flags.toP, getElem_bitAt]

theorem toP_injective : Function.Injective Flags.toP := by
  intro f g h
  obtain ⟨fn, fv, fr, fb, fd, fi, fz, fc⟩ := getElem_toP f
  rw [h] at fn fv fr fb fd fi fz fc
  obtain ⟨gn, gv, gr, gb, gd, gi, gz, gc⟩ := getElem_toP g
  cases f
  cases g
  simp_all

/-- Settles O52: five outputs are the registers themselves, and the status byte determines the flags. -/
theorem introspectionShowsAllButMemory : Obligations.IntrospectionShowsAllButMemory := by
  intro s t
  refine ⟨rfl, fun h => ?_, fun h => ?_⟩
  · obtain ⟨a, x, y, sp, pc, flags, mem⟩ := s
    obtain ⟨ha, hx, hy, hsp, hpc, hp⟩ := Introspection.mk.inj h
    obtain rfl := toP_injective hp
    subst ha hx hy hsp hpc
    rfl
  · rw [h]
    rfl

end Sys2Proof.Proofs
end

section
/-! The canonical form determines the list (R36, log entry 4): two memories that read alike list the same cells. -/

namespace Sys2Proof.Proofs

open Sys2Proof.Machine Sys2Proof.Laws

theorem risingFrom_cons_iff {lo k : Nat} {w : Byte} {rest : Memory} :
    risingFrom lo ((k, w) :: rest) = true
      ↔ lo ≤ k ∧ k < 65536 ∧ w ≠ unlistedByte ∧ risingFrom (k + 1) rest = true := by
  simp [risingFrom, and_assoc]

theorem risingFrom_succ_of_lt {lo j k : Nat} {w : Byte} {rest : Memory}
    (h : risingFrom lo ((k, w) :: rest) = true) (hj : j < k) : risingFrom (j + 1) ((k, w) :: rest) = true := by
  obtain ⟨-, htail⟩ := risingFrom_cons_iff.mp h
  exact risingFrom_cons_iff.mpr ⟨hj, htail⟩

@[simp] theorem read_cons_same (k : Nat) (w : Byte) (rest : Memory) : Memory.read ((k, w) :: rest) k = w := by
  simp [Memory.read]

theorem read_cons_ne {k a : Nat} (w : Byte) (rest : Memory) (h : a ≠ k) :
    Memory.read ((k, w) :: rest) a = Memory.read rest a := by
  simp [Memory.read, h.symm]

/-- A memory that lists nothing up to `k` differs at `k` from one that lists `k`. -/
theorem read_ne_of_risingFrom_succ {lo k : Nat} {w : Byte} {rest m : Memory}
    (h : risingFrom lo ((k, w) :: rest) = true) (hm : risingFrom (k + 1) m = true) :
    Memory.read ((k, w) :: rest) k ≠ Memory.read m k := by
  obtain ⟨-, -, hw, -⟩ := risingFrom_cons_iff.mp h
  rwa [read_cons_same, read_below hm (Nat.lt_succ_self k)]

theorem eq_of_read_eq {lo lo' : Nat} {m m' : Memory} (h : risingFrom lo m = true)
    (h' : risingFrom lo' m' = true) (hread : ∀ a, a < 65536 → Memory.read m a = Memory.read m' a) : m = m' := by
  induction m generalizing lo lo' m' with
  | nil =>
    cases m' with
    | nil => rfl
    | cons c' rest' =>
      obtain ⟨-, hk', -, -⟩ := risingFrom_cons_iff.mp h'
      exact absurd (hread _ hk').symm (read_ne_of_risingFrom_succ h' rfl)
  | cons c rest ih =>
    obtain ⟨k, w⟩ := c
    obtain ⟨-, hk, -, hrest⟩ := risingFrom_cons_iff.mp h
    cases m' with
    | nil => exact absurd (hread k hk) (read_ne_of_risingFrom_succ h rfl)
    | cons c' rest' =>
      obtain ⟨k', w'⟩ := c'
      obtain ⟨-, hk', -, hrest'⟩ := risingFrom_cons_iff.mp h'
      rcases Nat.lt_trichotomy k k' with hlt | rfl | hgt
      · exact absurd (hread k hk) (read_ne_of_risingFrom_succ h (risingFrom_succ_of_lt h' hlt))
      · have hw : w = w' := by simpa using hread k hk
        have htail : rest = rest' := ih hrest hrest' fun a ha => by
          by_cases hak : a = k
          · subst hak
            rw [read_below hrest (Nat.lt_succ_self a), read_below hrest' (Nat.lt_succ_self a)]
          · simpa only [read_cons_ne _ _ hak] using hread a ha
        rw [hw, htail]
      · exact absurd (hread k' hk').symm (read_ne_of_risingFrom_succ h' (risingFrom_succ_of_lt h hgt))

/-- Settles O6: the two lists are compared cell by cell from the lowest listed address. -/
theorem equalContentsAreEqualMemories : Obligations.EqualContentsAreEqualMemories := by
  intro s t hs ht hread
  refine eq_of_read_eq hs ht fun a ha => ?_
  simpa [readByte, Nat.mod_eq_of_lt ha] using hread (BitVec.ofNat 16 a)

end Sys2Proof.Proofs
end

section
/-! What a completed step does to memory, `SP` and the flags, said once for all instructions; the invariants follow
from it, and one induction carries them over the host's operations. -/

namespace Sys2Proof.Proofs

open Sys2Proof.Machine Sys2Proof.Laws

/-- What one instruction can do to the flags (R28): nothing, `SetNZ`, or one of `C D I V` cleared or `C D I` set. -/
inductive FlagsStep (f : Flags) : Flags → Prop where
  | same : FlagsStep f f
  | setNZ (v : Byte) : FlagsStep f (f.setNZ v)
  | clear (g : Flag) (hg : g = .c ∨ g = .i ∨ g = .d ∨ g = .v) : FlagsStep f (f.set g false)
  | set (g : Flag) (hg : g = .c ∨ g = .i ∨ g = .d) : FlagsStep f (f.set g true)

theorem FlagsStep.keeps_r_and_b {f g : Flags} (h : FlagsStep f g) : g.r = f.r ∧ g.b = f.b := by
  cases h with
  | same | setNZ => exact ⟨rfl, rfl⟩
  | clear g hg => rcases hg with rfl | rfl | rfl | rfl <;> exact ⟨rfl, rfl⟩
  | set g hg => rcases hg with rfl | rfl | rfl <;> exact ⟨rfl, rfl⟩

/-- No instruction sets `V` (R30). -/
theorem FlagsStep.keeps_v_clear {f g : Flags} (h : FlagsStep f g) (hv : f.v = false) : g.v = false := by
  cases h with
  | same | setNZ => exact hv
  | clear g hg => rcases hg with rfl | rfl | rfl | rfl <;> simp [Flags.set, hv]
  | set g hg => rcases hg with rfl | rfl | rfl <;> exact hv

/-- The effect of a completed instruction outside A, X, Y and PC. -/
theorem exec_effect {i : Instr} {s t : State} (h : exec i s = .next t) :
    (t.mem = s.mem ∨ ∃ (k : Addr) (v : Byte), t.mem = s.mem.write k.toNat v)
    ∧ FlagsStep s.flags t.flags ∧ t.sp = s.sp := by
  have hshape := exec_shape i
  generalize exec i = f at h hshape
  cases hshape with
  | load r src =>
    cases h
    obtain ⟨-, -, hflags, hsp, -, hmem⟩ := loadReg_effect r src s
    exact ⟨.inl hmem, hflags ▸ .setNZ _, hsp⟩
  | store r m =>
    cases h
    obtain ⟨-, hflags, hsp, -, hmem⟩ := storeReg_effect r m s
    exact ⟨.inr ⟨_, _, hmem⟩, hflags ▸ .same, hsp⟩
  | transfer src dst =>
    cases h
    obtain ⟨-, -, hflags, hsp, -, hmem⟩ := transferReg_effect modelParams.transferSetsNZ src dst s
    exact ⟨.inl hmem, hflags ▸ .same, hsp⟩
  | add d r =>
    cases h
    obtain ⟨-, -, hflags, hsp, -, hmem⟩ := addToReg_effect d r s
    exact ⟨.inl hmem, hflags ▸ .setNZ _, hsp⟩
  | clear g hg =>
    cases h
    obtain ⟨-, hflags, hsp, -, hmem⟩ := assignFlag_effect g false s
    exact ⟨.inl hmem, hflags ▸ .clear g hg, hsp⟩
  | set g hg =>
    cases h
    obtain ⟨-, hflags, hsp, -, hmem⟩ := assignFlag_effect g true s
    exact ⟨.inl hmem, hflags ▸ .set g hg, hsp⟩
  | nop =>
    cases h
    exact ⟨.inl rfl, .same, rfl⟩
  | jump target =>
    cases h
    exact ⟨.inl rfl, .same, rfl⟩
  | unimplemented => cases h

/-- A step that completes is the execution of some instruction. -/
theorem exists_exec_of_step {s t : State} (h : step s = .next t) : ∃ i, exec i s = .next t := by
  unfold step at h
  split at h
  · next i _ _ => exact ⟨i, h⟩
  · cases h

theorem step_effect {s t : State} (h : step s = .next t) :
    (t.mem = s.mem ∨ ∃ (k : Addr) (v : Byte), t.mem = s.mem.write k.toNat v)
    ∧ FlagsStep s.flags t.flags ∧ t.sp = s.sp := by
  obtain ⟨i, hi⟩ := exists_exec_of_step h
  exact exec_effect hi

/-- Settles O43: a step writes at most one cell, and its flag change keeps `R`, `B` and `V = 0`. -/
theorem everyStepKeepsInvariant : Obligations.EveryStepKeepsInvariant := by
  intro s t hs h
  obtain ⟨hmem, hflags, -⟩ := step_effect h
  obtain ⟨hr, hb⟩ := hflags.keeps_r_and_b
  refine ⟨?_, hr.trans hs.reserved, hb.trans hs.breakClear, hflags.keeps_v_clear hs.overflowClear⟩
  rcases hmem with hmem | ⟨k, v, hmem⟩
  · exact hmem ▸ hs.memWf
  · exact hmem ▸ write_wf hs.memWf k.isLt v

theorem construct_invariant {m : Memory} (hwf : m.wf = true) (pc : Addr) : Invariant (construct m pc) :=
  ⟨hwf, rfl, rfl, rfl⟩

theorem resetTo_invariant {s : State} (hwf : s.mem.wf = true) (pc : Addr) : Invariant (resetTo pc s) :=
  ⟨hwf, rfl, rfl, rfl⟩

/-- Settles O42: reset and construction give the three flags their values and leave memory as it is. -/
theorem invariantHoldsAfterReset : Obligations.InvariantHoldsAfterReset :=
  ⟨⟨rfl, rfl, rfl, rfl⟩, fun pc _ hwf => ⟨resetTo_invariant hwf pc, construct_invariant hwf pc⟩⟩

/-- A tick is a completed step or leaves the state as it is (R211, R212). -/
theorem step_eq_next_tick_or_tick_eq (s : State) : step s = .next (tick s) ∨ tick s = s := by
  unfold tick
  cases step s with
  | next t => exact .inl rfl
  | fault r => exact .inr rfl
  | refused r => exact .inr rfl

/-- What every step and every reset keeps, the host's operations keep. -/
theorem runHostOps_induction {P : State → Prop} (hstep : ∀ s t, P s → step s = .next t → P t)
    (hreset : ∀ pc s, P s → P (resetTo pc s)) (ops : List HostOp) {s : State} (hs : P s) :
    P (runHostOps ops s) := by
  induction ops generalizing s with
  | nil => exact hs
  | cons op rest ih =>
    refine ih ?_
    cases op with
    | tick =>
      rcases step_eq_next_tick_or_tick_eq s with h | h
      · exact hstep s _ hs h
      · rwa [applyHostOp, h]
    | reset pc => exact hreset pc s hs
    | readMemory _ => exact hs
    | inspect => exact hs

theorem systemStart_invariant (image : List Byte) (base entry : Addr) :
    Invariant (systemStart image base entry) :=
  construct_invariant (storeBytes_wf image base rfl) entry

theorem invariant_of_reachable (image : List Byte) (base entry : Addr) (ops : List HostOp) :
    Invariant (runHostOps ops (systemStart image base entry)) :=
  runHostOps_induction everyStepKeepsInvariant (fun pc _ hs => resetTo_invariant hs.memWf pc) ops
    (systemStart_invariant image base entry)

theorem sp_of_reachable (image : List Byte) (base entry : Addr) (ops : List HostOp) :
    (runHostOps ops (systemStart image base entry)).sp = Config.spReset := by
  refine runHostOps_induction (P := fun s => s.sp = Config.spReset) (fun s t hs h => ?_) (fun _ _ _ => rfl) ops rfl
  obtain ⟨-, -, hsp⟩ := step_effect h
  exact hsp.trans hs

/-- Settles O44: system start meets the invariant, and every host operation keeps it. -/
theorem everyReachableStateKeepsInvariant : Obligations.EveryReachableStateKeepsInvariant := by
  refine ⟨fun image base entry ops => ⟨invariant_of_reachable image base entry ops,
    sp_of_reachable image base entry ops⟩, fun s t h => ?_, fun _ _ => ⟨rfl, rfl⟩⟩
  obtain ⟨-, hflags, -⟩ := step_effect h
  exact hflags.keeps_r_and_b.left

end Sys2Proof.Proofs
end

section
/-! The flag values a system reaches: all that R28 and R119 allow, and no other (log entry 15). -/

namespace Sys2Proof.Proofs

open Sys2Proof.Machine Sys2Proof.Laws

theorem setNZ_not_negative_zero (v : Byte) (f : Flags) : ¬((f.setNZ v).n = true ∧ (f.setNZ v).z = true) := by
  rintro ⟨hn, hz⟩
  obtain rfl : v = 0#8 := by simpa using hz
  simp at hn

/-- `N` and `Z` are written together from one value, which is never both negative and zero (R119). -/
theorem FlagsStep.not_negative_zero {f g : Flags} (h : FlagsStep f g) (hf : ¬(f.n = true ∧ f.z = true)) :
    ¬(g.n = true ∧ g.z = true) := by
  cases h with
  | same => exact hf
  | setNZ v => exact setNZ_not_negative_zero v f
  | clear g hg => rcases hg with rfl | rfl | rfl | rfl <;> exact hf
  | set g hg => rcases hg with rfl | rfl | rfl <;> exact hf

theorem reset_not_negative_zero : ¬(Flags.reset.n = true ∧ Flags.reset.z = true) := by decide

theorem not_negative_zero_of_reachable (image : List Byte) (base entry : Addr) (ops : List HostOp) :
    ¬((runHostOps ops (systemStart image base entry)).flags.n = true
      ∧ (runHostOps ops (systemStart image base entry)).flags.z = true) := by
  refine runHostOps_induction (P := fun s => ¬(s.flags.n = true ∧ s.flags.z = true)) (fun s t hs h => ?_)
    (fun _ _ _ => reset_not_negative_zero) ops reset_not_negative_zero
  obtain ⟨-, hflags, -⟩ := step_effect h
  exact hflags.not_negative_zero hs

/-- A load of a value that shows the wanted `N` and `Z`, then one instruction for each of `C`, `D` and `I`. -/
def flagProgram (n z c d i : Bool) : List Byte :=
  [0xA9#8, if z then 0x00#8 else if n then 0x80#8 else 0x01#8,
    if c then 0x38#8 else 0x18#8, if d then 0xF8#8 else 0xD8#8, if i then 0x78#8 else 0x58#8]

/-- Each of the 24 programs, run from 0x0000 for its four instructions. -/
theorem flags_after_flagProgram : ∀ n z c d i : Bool, ¬(n = true ∧ z = true) →
    (runHostOps [.tick, .tick, .tick, .tick] (systemStart (flagProgram n z c d i) 0#16 0#16)).flags
      = { n := n, v := false, r := true, b := false, d := d, i := i, z := z, c := c } := by
  decide

/-- Settles O45: `flagProgram` reaches the 24 combinations, and the invariant with R119 excludes the rest. -/
theorem reachableFlagsAreAllButNegativeZero : Obligations.ReachableFlagsAreAllButNegativeZero := by
  refine ⟨fun n z c d i h => ⟨flagProgram n z c d i, 0#16, 0#16, _, flags_after_flagProgram n z c d i h⟩,
    fun image base entry ops => ?_⟩
  have hinv := invariant_of_reachable image base entry ops
  exact ⟨hinv.overflowClear, hinv.reserved, hinv.breakClear, not_negative_zero_of_reachable image base entry ops⟩

end Sys2Proof.Proofs
end

section
/-! What an instruction reads: a register it does not list, the flags and `SP` do not change what it does. The operand
depends on its index register and memory alone; each family's rule then commutes with the other update. -/

namespace Sys2Proof.Proofs

open Sys2Proof.Machine Sys2Proof.Claims Sys2Proof.Laws

theorem effectiveAddress_congr {m : MemOperand} {s t : State}
    (h : ∀ r ∈ indexOf m.mode, getReg r s = getReg r t) :
    effectiveAddress m s = effectiveAddress m t := by
  cases m with
  | zeroPage b1 | absolute base => rfl
  | zeroPageX b1 | absoluteX base =>
    have hx : s.x = t.x := h .x (List.mem_singleton.mpr rfl)
    simp only [effectiveAddress, hx]
  | zeroPageY b1 | absoluteY base =>
    have hy : s.y = t.y := h .y (List.mem_singleton.mpr rfl)
    simp only [effectiveAddress, hy]

theorem sourceValue_congr {src : Source} {s t : State} (h : ∀ r ∈ indexOf src.mode, getReg r s = getReg r t)
    (hmem : s.mem = t.mem) : sourceValue src s = sourceValue src t := by
  cases src with
  | immediate b1 => rfl
  | memory m => simp only [sourceValue, readByte, effectiveAddress_congr h, hmem]

/-! ## Another value in one register -/

theorem setReg_setReg (q r : Reg) (v w : Byte) (s : State) :
    setReg q w (setReg r v s) = if r = q then setReg q w s else setReg r v (setReg q w s) := by
  cases q <;> cases r <;> rfl

theorem advancePC_setReg (n : Nat) (r : Reg) (v : Byte) (s : State) :
    advancePC n (setReg r v s) = setReg r v (advancePC n s) := by cases r <;> rfl

theorem setNZ_setReg (w : Byte) (r : Reg) (v : Byte) (s : State) :
    setNZ w (setReg r v s) = setReg r v (setNZ w s) := by cases r <;> rfl

theorem setFlag_setReg (f : Flag) (q : Bool) (r : Reg) (v : Byte) (s : State) :
    setFlag f q (setReg r v s) = setReg r v (setFlag f q s) := by cases r <;> rfl

theorem writeByte_setReg (k : Addr) (w : Byte) (r : Reg) (v : Byte) (s : State) :
    writeByte k w (setReg r v s) = setReg r v (writeByte k w s) := by cases r <;> rfl

theorem setPC_setReg (k : Addr) (r : Reg) (v : Byte) (s : State) :
    setPC k (setReg r v s) = setReg r v (setPC k s) := by cases r <;> rfl

theorem getReg_setReg_of_not_mem {r : Reg} {regs : List Reg} (v : Byte) (s : State) (hr : r ∉ regs) :
    ∀ q ∈ regs, getReg q (setReg r v s) = getReg q s := fun _ hq =>
  getReg_setReg_ne v s (ne_of_mem_of_not_mem hq hr)

theorem loadReg_setReg {r q : Reg} {src : Source} (v : Byte) (s : State) (hr : r ∉ indexOf src.mode) :
    loadReg q src (setReg r v s) = if r = q then loadReg q src s else setReg r v (loadReg q src s) := by
  have hval : sourceValue src (setReg r v s) = sourceValue src s :=
    sourceValue_congr (getReg_setReg_of_not_mem v s hr) (setReg_mem r v s)
  unfold loadReg
  rw [hval, setReg_setReg]
  split
  · rfl
  · rw [setNZ_setReg, advancePC_setReg]

theorem storeReg_setReg {r q : Reg} {m : MemOperand} (v : Byte) (s : State) (hr : r ∉ q :: indexOf m.mode) :
    storeReg q m (setReg r v s) = setReg r v (storeReg q m s) := by
  obtain ⟨hq, hidx⟩ : r ≠ q ∧ r ∉ indexOf m.mode := by simpa using hr
  have hea : effectiveAddress m (setReg r v s) = effectiveAddress m s :=
    effectiveAddress_congr (getReg_setReg_of_not_mem v s hidx)
  rw [storeReg, hea, getReg_setReg_ne v s hq.symm, writeByte_setReg, advancePC_setReg, storeReg]

theorem transferReg_setReg {r src : Reg} (nz : Bool) (dst : Reg) (v : Byte) (s : State) (hr : r ≠ src) :
    transferReg nz src dst (setReg r v s)
      = if r = dst then transferReg nz src dst s else setReg r v (transferReg nz src dst s) := by
  unfold transferReg
  rw [getReg_setReg_ne v s hr.symm, setReg_setReg]
  by_cases hdst : r = dst
  · rw [if_pos hdst, if_pos hdst]
  · cases nz <;> simp [hdst, setNZ_setReg, advancePC_setReg]

theorem addToReg_setReg {r q : Reg} (d v : Byte) (s : State) (hr : r ≠ q) :
    addToReg d q (setReg r v s) = setReg r v (addToReg d q s) := by
  unfold addToReg
  rw [getReg_setReg_ne v s hr.symm, setReg_setReg, if_neg hr, setNZ_setReg, advancePC_setReg]

theorem assignFlag_setReg (f : Flag) (q : Bool) (r : Reg) (v : Byte) (s : State) :
    assignFlag f q (setReg r v s) = setReg r v (assignFlag f q s) := by
  unfold assignFlag
  rw [setFlag_setReg, advancePC_setReg]

/-- Settles O32: by the nine shapes of an instruction. -/
theorem unlistedRegistersAreNotRead : Obligations.UnlistedRegistersAreNotRead := by
  intro i s r v hr
  have hshape := exec_shape i
  generalize exec i = f at hshape
  cases hshape with
  | load q src hop hread hreg hflag huse =>
    have hidx : r ∉ indexOf src.mode := hread ▸ hr
    simp only [mapNext, hreg, List.mem_singleton, loadReg_setReg v s hidx]
  | store q m hop hread hreg hflag huse =>
    have hregs : r ∉ q :: indexOf m.mode := hread ▸ hr
    simp only [mapNext, hreg, List.not_mem_nil, if_false, storeReg_setReg v s hregs]
  | transfer src dst hne hop hread hreg hflag =>
    have hsrc : r ≠ src := List.ne_of_not_mem_cons (hread ▸ hr)
    simp only [mapNext, hreg, List.mem_singleton, transferReg_setReg _ dst v s hsrc]
  | add d q hop hread hreg hflag =>
    have hq : r ≠ q := List.ne_of_not_mem_cons (hread ▸ hr)
    simp only [mapNext, hreg, List.mem_singleton, if_neg hq, addToReg_setReg d v s hq]
  | clear g hg hop hread hreg hflag | set g hg hop hread hreg hflag =>
    simp only [mapNext, hreg, List.not_mem_nil, if_false, assignFlag_setReg]
  | nop => exact congrArg _ (advancePC_setReg 1 r v s)
  | jump target => exact congrArg _ (setPC_setReg target r v s)
  | unimplemented op hmode => simp only [mapNext, setReg_pc]

/-! ## Other flags -/

theorem loadReg_withFlags (r : Reg) (src : Source) (s : State) (f : Flags) :
    loadReg r src { s with flags := f } = { loadReg r src s with flags := f.setNZ (sourceValue src s) } := by
  have hval : sourceValue src { s with flags := f } = sourceValue src s :=
    sourceValue_congr (fun q _ => by cases q <;> rfl) rfl
  unfold loadReg
  rw [hval]
  cases r <;> rfl

theorem storeReg_withFlags (r : Reg) (m : MemOperand) (s : State) (f : Flags) :
    storeReg r m { s with flags := f } = { storeReg r m s with flags := f } := by
  have hea : effectiveAddress m { s with flags := f } = effectiveAddress m s :=
    effectiveAddress_congr fun q _ => by cases q <;> rfl
  unfold storeReg
  rw [hea]
  cases r <;> rfl

/-- With the switch `TRANSFER_SETS_NZ` off, as in `modelParams`, a transfer writes no flag (R170). -/
theorem transferReg_withFlags (src dst : Reg) (s : State) (f : Flags) :
    transferReg false src dst { s with flags := f } = { transferReg false src dst s with flags := f } := by
  cases src <;> cases dst <;> rfl

theorem addToReg_withFlags (d : Byte) (r : Reg) (s : State) (f : Flags) :
    addToReg d r { s with flags := f } = { addToReg d r s with flags := f.setNZ (getReg r s + d) } := by
  cases r <;> rfl

/-- `SetNZ` of one value over two flag states: `Z` and `N` agree, the others are each state's own. -/
theorem get_setNZ_of_flagsWritten {m : Mnemonic} (hm : flagsWritten m = [.z, .n]) (v : Byte) (f f' : Flags) :
    (∀ h, h ∉ flagsWritten m → (f.setNZ v).get h = f.get h)
    ∧ (∀ h ∈ flagsWritten m, (f.setNZ v).get h = (f'.setNZ v).get h) := by
  simp only [hm, List.mem_cons, List.not_mem_nil, or_false, not_or]
  refine ⟨fun h hh => get_setNZ_ne v f hh.1 hh.2, fun h hh => ?_⟩
  rcases hh with rfl | rfl <;> rfl

/-- One flag assigned over two flag states. -/
theorem get_set_of_flagsWritten {m : Mnemonic} {g : Flag} (hm : flagsWritten m = [g]) (q : Bool) (f f' : Flags) :
    (∀ h, h ∉ flagsWritten m → (f.set g q).get h = f.get h)
    ∧ (∀ h ∈ flagsWritten m, (f.set g q).get h = (f'.set g q).get h) := by
  simp only [hm, List.mem_singleton]
  refine ⟨fun h hh => get_set_ne q f hh, fun h hh => ?_⟩
  rw [hh, get_set_same, get_set_same]

/-- No flag is written, so the other flags stay. -/
theorem exists_flags_of_no_flagsWritten {m : Mnemonic} (hm : flagsWritten m = []) (f : Flags) (o o' : StepOutcome)
    (ho : o' = mapNext (fun t => { t with flags := f }) o) :
    ∃ g : Flags, o' = mapNext (fun t => { t with flags := g }) o
      ∧ (∀ h, h ∉ flagsWritten m → g.get h = f.get h)
      ∧ (∀ h t, h ∈ flagsWritten m → o = .next t → g.get h = t.flags.get h) :=
  ⟨f, ho, fun _ _ => rfl, fun _ _ hh => absurd (hm ▸ hh) List.not_mem_nil⟩

/-- Settles O33: by the nine shapes of an instruction. -/
theorem noInstructionReadsAFlag : Obligations.NoInstructionReadsAFlag := by
  intro i s f
  have hshape := exec_shape i
  generalize exec i = o at hshape
  cases hshape with
  | load r src hop hread hreg hflag huse =>
    obtain ⟨hkept, hsame⟩ := get_setNZ_of_flagsWritten hflag (sourceValue src s) f s.flags
    obtain ⟨-, -, hflags, -⟩ := loadReg_effect r src s
    refine ⟨_, congrArg _ (loadReg_withFlags r src s f), hkept, fun h t hh ht => ?_⟩
    cases ht
    rw [hflags, hsame h hh]
  | add d r hop hread hreg hflag =>
    obtain ⟨hkept, hsame⟩ := get_setNZ_of_flagsWritten hflag (getReg r s + d) f s.flags
    obtain ⟨-, -, hflags, -⟩ := addToReg_effect d r s
    refine ⟨_, congrArg _ (addToReg_withFlags d r s f), hkept, fun h t hh ht => ?_⟩
    cases ht
    rw [hflags, hsame h hh]
  | clear g hg hop hread hreg hflag | set g hg hop hread hreg hflag =>
    have hfollow := fun q => get_set_of_flagsWritten hflag q f s.flags
    refine ⟨f.set g _, rfl, (hfollow _).left, fun h t hh ht => ?_⟩
    cases ht
    exact (hfollow _).right h hh
  | store r m hop hread hreg hflag huse =>
    exact exists_flags_of_no_flagsWritten hflag f _ _ (congrArg _ (storeReg_withFlags r m s f))
  | transfer src dst hne hop hread hreg hflag =>
    exact exists_flags_of_no_flagsWritten hflag f _ _ (congrArg _ (transferReg_withFlags src dst s f))
  | nop => exact exists_flags_of_no_flagsWritten rfl f _ _ rfl
  | jump target => exact exists_flags_of_no_flagsWritten rfl f _ _ rfl
  | unimplemented op hmode => exact ⟨f, rfl, fun _ _ => rfl, fun _ _ _ ht => nomatch ht⟩

/-! ## Another value in `SP` -/

theorem readBytes_congr {s t : State} (hmem : s.mem = t.mem) (n : Nat) (k : Addr) :
    readBytes n k s = readBytes n k t := by
  induction n generalizing k with
  | zero => rfl
  | succ n ih => simp only [readBytes, readByte, hmem, ih]

/-- The fetch depends on `PC` and memory alone. -/
theorem fetchBytes_congr {s t : State} (hpc : s.pc = t.pc) (hmem : s.mem = t.mem) : fetchBytes s = fetchBytes t := by
  simp only [fetchBytes, readByte, hpc, hmem, readBytes_congr hmem]

theorem loadReg_withSP (r : Reg) (src : Source) (s : State) (v : Byte) :
    loadReg r src { s with sp := v } = { loadReg r src s with sp := v } := by
  have hval : sourceValue src { s with sp := v } = sourceValue src s :=
    sourceValue_congr (fun q _ => by cases q <;> rfl) rfl
  unfold loadReg
  rw [hval]
  cases r <;> rfl

theorem storeReg_withSP (r : Reg) (m : MemOperand) (s : State) (v : Byte) :
    storeReg r m { s with sp := v } = { storeReg r m s with sp := v } := by
  have hea : effectiveAddress m { s with sp := v } = effectiveAddress m s :=
    effectiveAddress_congr fun q _ => by cases q <;> rfl
  unfold storeReg
  rw [hea]
  cases r <;> rfl

theorem transferReg_withSP (src dst : Reg) (s : State) (v : Byte) :
    transferReg false src dst { s with sp := v } = { transferReg false src dst s with sp := v } := by
  cases src <;> cases dst <;> rfl

theorem addToReg_withSP (d : Byte) (r : Reg) (s : State) (v : Byte) :
    addToReg d r { s with sp := v } = { addToReg d r s with sp := v } := by
  cases r <;> rfl

theorem exec_withSP (i : Instr) (s : State) (v : Byte) :
    exec i { s with sp := v } = mapNext (fun t => { t with sp := v }) (exec i s) := by
  have hshape := exec_shape i
  generalize exec i = o at hshape
  cases hshape with
  | load r src => exact congrArg _ (loadReg_withSP r src s v)
  | store r m => exact congrArg _ (storeReg_withSP r m s v)
  | transfer src dst => exact congrArg _ (transferReg_withSP src dst s v)
  | add d r => exact congrArg _ (addToReg_withSP d r s v)
  | clear | set | nop | jump | unimplemented => rfl

theorem step_withSP (s : State) (v : Byte) :
    step { s with sp := v } = mapNext (fun t => { t with sp := v }) (step s) := by
  have hfetch : fetchBytes { s with sp := v } = fetchBytes s := fetchBytes_congr rfl rfl
  unfold step
  rw [hfetch]
  split
  · next i _ _ => exact exec_withSP i s v
  · rfl

/-- Settles O34: every instruction carries `SP` along, and the fetch does not look at it. -/
theorem stackPointerIsNeverUsed : Obligations.StackPointerIsNeverUsed := by
  refine ⟨step_withSP, fun s t h => ?_, fun _ _ => ⟨rfl, rfl⟩⟩
  obtain ⟨-, -, hsp⟩ := step_effect h
  exact hsp

end Sys2Proof.Proofs
end

section
/-! The status byte as a number (R32): the sum of its bits, each of which is a flag. -/

namespace Sys2Proof.Proofs

open Sys2Proof.Machine

theorem toNat_eq_sum_bits (p : Byte) :
    p.toNat = 128 * p[7].toNat + 64 * p[6].toNat + 32 * p[5].toNat + 16 * p[4].toNat
      + 8 * p[3].toNat + 4 * p[2].toNat + 2 * p[1].toNat + p[0].toNat := by
  have hp : p.toNat < 256 := p.isLt
  simp only [BitVec.getElem_eq_testBit_toNat, Nat.toNat_testBit]
  omega

/-- Settles O51: the bits of the status byte are the flags in R32's order. -/
theorem statusByteLayout : Obligations.StatusByteLayout := by
  intro f
  obtain ⟨hn, hv, hr, hb, hd, hi, hz, hc⟩ := getElem_toP f
  rw [toNat_eq_sum_bits, hn, hv, hr, hb, hd, hi, hz, hc]

end Sys2Proof.Proofs
end

section
/-! Memory read before any write and after one (R63, R51), and the fetch taken apart by the opcode's row: which
instruction the bytes at `PC` are, or that the step reports them. -/

namespace Sys2Proof.Proofs

open Sys2Proof.Machine Sys2Proof.Claims Sys2Proof.Laws

/-- Settles O5: the laws of one write. -/
theorem writeChangesOneCell : Obligations.WriteChangesOneCell := fun s k _ v hwf =>
  ⟨readByte_writeByte_same hwf k v, readByte_writeByte_ne v s, rfl, writeByte_wf hwf k v⟩

/-- The instructions that a row's format makes of some operand (R81). -/
inductive Builds : Form → Instr → Prop where
  | f1 (i : Instr) : Builds (.f1 i) i
  | f2 (mk : Byte → Instr) (b1 : Byte) : Builds (.f2 mk) (mk b1)
  | f3 (mk : Addr → Instr) (base : Addr) : Builds (.f3 mk) (mk base)

/-- An instruction built by a row has that row's opcode byte and entry, whatever its operand (R86). -/
def RowAgrees (p : Params) : Byte × Form → Prop
  | (op, .f1 i) => opcodeOf p i = op
  | (op, .f2 mk) => ∀ b1, opcodeOf p (mk b1) = op ∧ (mk b1).entry = (mk 0#8).entry
  | (op, .f3 mk) => ∀ base, opcodeOf p (mk base) = op ∧ (mk base).entry = (mk 0#16).entry

theorem rowAgrees_of_mem_opcodeRows {p : Params} {row : Byte × Form} (h : row ∈ opcodeRows p) : RowAgrees p row := by
  have hrows : ∀ row ∈ loadRows ++ storeRows ++ registerRows ++ indirectRows ++ [(p.opcIncA, .f1 .incA)],
      RowAgrees p row := by
    simp [loadRows, storeRows, registerRows, indirectRows, RowAgrees, opcodeOf, Instr.entry, Instr.mnemonic,
      Instr.operand, Operand.mode, MemOperand.mode]
  refine hrows row ?_
  unfold opcodeRows at h
  split at h
  · exact h
  · simp only [List.append_nil, List.mem_append] at h ⊢
    tauto

theorem opcodeOf_and_entry_of_builds {p : Params} {op : Byte} {f : Form} {i : Instr} (hf : formOf p op = some f)
    (hi : Builds f i) : opcodeOf p i = op ∧ i.entry = f.entry := by
  have hrow : RowAgrees p (op, f) := rowAgrees_of_mem_opcodeRows (mem_of_formOf hf)
  cases hi with
  | f1 i => exact ⟨hrow, rfl⟩
  | f2 mk b1 => exact hrow b1
  | f3 mk base => exact hrow base

theorem operand_mode_of_builds {p : Params} {op : Byte} {f : Form} {i : Instr} (hf : formOf p op = some f)
    (hi : Builds f i) : i.operand.mode = f.entry.mode := by
  obtain ⟨-, hentry⟩ := opcodeOf_and_entry_of_builds hf hi
  exact congrArg Entry.mode hentry

/-- The operand's length is what the fetch took it to be from the opcode alone (R83, R108). -/
theorem operandCount_of_builds {p : Params} {op : Byte} {f : Form} {i : Instr} (hf : formOf p op = some f)
    (hi : Builds f i) : operandCount p op = i.operand.mode.nbytes - 1 := by
  obtain ⟨-, hentry⟩ := opcodeOf_and_entry_of_builds hf hi
  simp [operandCount, opcodeTable, hf, ← hentry, Instr.entry]

/-! ## The four cases of a fetch -/

theorem decode_fetchBytes_of_formOf_none {s : State} (h : formOf modelParams (opcodeAt s) = none) :
    decode (fetchBytes s) = .error (.unassignedOpcode (opcodeAt s)) := by
  rw [opcodeAt] at h ⊢
  simp only [decode, fetchBytes, decodeWith, h]

theorem decode_fetchBytes_of_f1 {s : State} {i : Instr} (h : formOf modelParams (opcodeAt s) = some (.f1 i)) :
    decode (fetchBytes s) = .ok (i, []) := by
  rw [opcodeAt] at h
  simp only [decode, fetchBytes, decodeWith, h, operandCount_of_formOf h, formOperandCount, readBytes]

theorem decode_fetchBytes_of_f2 {s : State} {mk : Byte → Instr}
    (h : formOf modelParams (opcodeAt s) = some (.f2 mk)) :
    decode (fetchBytes s) = .ok (mk (operand1 s), []) := by
  rw [opcodeAt] at h
  simp only [decode, fetchBytes, decodeWith, h, operandCount_of_formOf h, formOperandCount, readBytes, operand1, cell,
    ofNat_toNat_add_mod]

/-- The assembled operand is the spec's integer `b1 + 256*b2` (R114). -/
theorem addrOfBytes_operands (s : State) : addrOfBytes (operand1 s) (operand2 s) = operand16 s := by
  apply BitVec.eq_of_toNat_eq
  have h := (addrOfBytes (operand1 s) (operand2 s)).isLt
  rw [addrOfBytes_toNat] at h
  rw [addrOfBytes_toNat, operand16, BitVec.toNat_ofNat, Nat.mod_eq_of_lt h]

theorem decode_fetchBytes_of_f3 {s : State} {mk : Addr → Instr}
    (h : formOf modelParams (opcodeAt s) = some (.f3 mk)) :
    decode (fetchBytes s) = .ok (mk (operand16 s), []) := by
  have htwo : s.pc + BitVec.ofNat 16 2 = s.pc + 1#16 + 1#16 := (add_one_add_ofNat s.pc 1).symm
  rw [← addrOfBytes_operands]
  rw [opcodeAt] at h
  simp only [decode, fetchBytes, decodeWith, h, operandCount_of_formOf h, formOperandCount, readBytes, operand1,
    operand2, cell, ofNat_toNat_add_mod, htwo]

theorem exists_decode_fetchBytes {s : State} {f : Form} (h : formOf modelParams (opcodeAt s) = some f) :
    ∃ i, decode (fetchBytes s) = .ok (i, []) ∧ Builds f i := by
  cases f with
  | f1 i => exact ⟨i, decode_fetchBytes_of_f1 h, .f1 i⟩
  | f2 mk => exact ⟨_, decode_fetchBytes_of_f2 h, .f2 mk _⟩
  | f3 mk => exact ⟨_, decode_fetchBytes_of_f3 h, .f3 mk _⟩

/-! ## The step on each -/

theorem step_of_formOf_none {s : State} (h : formOf modelParams (opcodeAt s) = none) :
    step s = .fault (.unrecognizedOpcode (opcodeAt s) s.pc) := by
  simp only [step, decode_fetchBytes_of_formOf_none h]
  rfl

theorem step_of_f1 {s : State} {i : Instr} (h : formOf modelParams (opcodeAt s) = some (.f1 i)) : step s = exec i s :=
  step_of_decode_fetchBytes (decode_fetchBytes_of_f1 h)

theorem step_of_f3 {s : State} {mk : Addr → Instr} (h : formOf modelParams (opcodeAt s) = some (.f3 mk)) :
    step s = exec (mk (operand16 s)) s :=
  step_of_decode_fetchBytes (decode_fetchBytes_of_f3 h)

/-- Settles O3: memory at system start lists no cell, and 0x00 has no row. -/
theorem unloadedMemoryIsZeroAndFaults : Obligations.UnloadedMemoryIsZeroAndFaults := by
  refine ⟨fun _ _ => rfl, fun s (h : opcodeAt s = 0x00#8) => ?_⟩
  have hnone : formOf modelParams 0x00#8 = none := by decide
  rw [step_of_formOf_none (h ▸ hnone), h]

end Sys2Proof.Proofs
end

section
/-! The accesses of a step (R58, R59): reads, then the one write of a store; and that this write is all the step does
to memory. -/

namespace Sys2Proof.Proofs

open Sys2Proof.Machine Sys2Proof.Claims Sys2Proof.Laws

/-! ## The accesses by the operand's form -/

theorem accessesAfterOpcode_of_memory {i : Instr} {m : MemOperand} (hop : i.operand = .memory m) (s : State) :
    accessesAfterOpcode i s = operandReads (m.mode.nbytes - 1) (s.pc + 1#16)
      ++ dataAccess (dataUse i.mnemonic) (effectiveAddress m s) s := by
  simp [accessesAfterOpcode, hop, resolve, Operand.mode]

theorem accessesAfterOpcode_of_immediate {i : Instr} {b1 : Byte} (hop : i.operand = .immediate b1) (s : State) :
    accessesAfterOpcode i s = [.read (s.pc + 1#16)] := by
  simp [accessesAfterOpcode, hop, resolve]

theorem accessesAfterOpcode_of_implied {i : Instr} (hop : i.operand = .implied) (s : State) :
    accessesAfterOpcode i s = [] := by
  simp [accessesAfterOpcode, hop, resolve]

@[simp] theorem memOperand_mode_unimplemented (m : MemOperand) : m.mode.unimplemented = false := by
  cases m <;> rfl

/-- The operand byte of the two indirect modes is not read (R117). -/
theorem accessesAfterOpcode_of_unimplemented {i : Instr} (hmode : i.operand.mode.unimplemented = true) (s : State) :
    accessesAfterOpcode i s = [] := by
  cases hop : i.operand with
  | indirectX | indirectY => simp [accessesAfterOpcode, hop, resolve]
  | implied | immediate =>
    rw [hop] at hmode
    cases hmode
  | memory m => simp [hop, Operand.mode] at hmode

theorem busTrace_of_decode {s : State} {i : Instr} {tail : List Byte} (h : decode (fetchBytes s) = .ok (i, tail)) :
    busTrace s = .read s.pc :: accessesAfterOpcode i s := by
  simp [busTrace, h]

theorem busTrace_of_formOf_none {s : State} (h : formOf modelParams (opcodeAt s) = none) :
    busTrace s = [.read s.pc] := by
  simp [busTrace, decode_fetchBytes_of_formOf_none h]

/-! ## Reads, then the store's write -/

/-- The write of a store (R150, R118); no other instruction has one. -/
def storeWrites (i : Instr) (s : State) : List Access :=
  match i.operand, dataUse i.mnemonic with
  | .memory m, .writes r => [.write (effectiveAddress m s) (getReg r s)]
  | _, _ => []

theorem storeWrites_of_store {i : Instr} {m : MemOperand} {r : Reg} (hop : i.operand = .memory m)
    (huse : dataUse i.mnemonic = .writes r) (s : State) :
    storeWrites i s = [.write (effectiveAddress m s) (getReg r s)] := by
  simp [storeWrites, hop, huse]

theorem storeWrites_cases (i : Instr) (s : State) :
    storeWrites i s = []
    ∨ ∃ m r, i.operand = .memory m ∧ dataUse i.mnemonic = .writes r
        ∧ storeWrites i s = [.write (effectiveAddress m s) (getReg r s)] := by
  unfold storeWrites
  split
  · next m r hop huse => exact .inr ⟨m, r, hop, huse, rfl⟩
  · exact .inl rfl

theorem storeWrites_of_operand_ne_memory {i : Instr} (h : ∀ m, i.operand ≠ .memory m) (s : State) :
    storeWrites i s = [] := by
  rcases storeWrites_cases i s with hnil | ⟨m, -, hop, -, -⟩
  · exact hnil
  · exact absurd hop (h m)

theorem storeWrites_of_dataUse_ne_writes {i : Instr} (h : ∀ r, dataUse i.mnemonic ≠ .writes r) (s : State) :
    storeWrites i s = [] := by
  rcases storeWrites_cases i s with hnil | ⟨-, r, -, huse, -⟩
  · exact hnil
  · exact absurd huse (h r)

theorem operandReads_eq_map_read (n : Nat) (k : Addr) : ∃ addrs : List Addr, operandReads n k = addrs.map .read := by
  induction n generalizing k with
  | zero => exact ⟨[], rfl⟩
  | succ n ih =>
    obtain ⟨addrs, h⟩ := ih (k + 1#16)
    exact ⟨k :: addrs, congrArg _ h⟩

theorem accessesAfterOpcode_eq_reads_append (i : Instr) (s : State) :
    ∃ reads : List Addr, accessesAfterOpcode i s = reads.map .read ++ storeWrites i s := by
  cases hop : i.operand with
  | implied | indirectX | indirectY =>
    have hnil : storeWrites i s = [] := storeWrites_of_operand_ne_memory (by simp [hop]) s
    exact ⟨[], by simp [accessesAfterOpcode, hop, resolve, hnil]⟩
  | immediate b1 =>
    have hnil : storeWrites i s = [] := storeWrites_of_operand_ne_memory (by simp [hop]) s
    exact ⟨[s.pc + 1#16], by simp [accessesAfterOpcode_of_immediate hop, hnil]⟩
  | memory m =>
    obtain ⟨addrs, hreads⟩ := operandReads_eq_map_read (m.mode.nbytes - 1) (s.pc + 1#16)
    rw [accessesAfterOpcode_of_memory hop, hreads]
    cases huse : dataUse i.mnemonic with
    | reads =>
      exact ⟨addrs ++ [effectiveAddress m s],
        by simp [dataAccess, storeWrites_of_dataUse_ne_writes (i := i) (by simp [huse])]⟩
    | writes r => exact ⟨addrs, by rw [storeWrites_of_store hop huse, dataAccess]⟩
    | untouched =>
      exact ⟨addrs, by simp [dataAccess, storeWrites_of_dataUse_ne_writes (i := i) (by simp [huse])]⟩

theorem applyWrites_reads_append (addrs : List Addr) (rest : List Access) (mem : Memory) :
    applyWrites (addrs.map .read ++ rest) mem = applyWrites rest mem := by
  induction addrs with
  | nil => rfl
  | cons addr addrs ih => exact ih

theorem applyWrites_accessesAfterOpcode (i : Instr) (s : State) (mem : Memory) :
    applyWrites (accessesAfterOpcode i s) mem = applyWrites (storeWrites i s) mem := by
  obtain ⟨reads, h⟩ := accessesAfterOpcode_eq_reads_append i s
  rw [h, applyWrites_reads_append]

/-! ## Memory after the step -/

/-- A completed instruction changes memory by its store's write. -/
theorem mem_of_exec {i : Instr} {s t : State} (h : exec i s = .next t) :
    t.mem = applyWrites (storeWrites i s) s.mem := by
  have hshape := exec_shape i
  generalize exec i = f at h hshape
  cases hshape with
  | load r src hop hread hreg hflag huse =>
    cases h
    obtain ⟨-, -, -, -, -, hmem⟩ := loadReg_effect r src s
    rw [hmem, storeWrites_of_dataUse_ne_writes (by simp [huse]), applyWrites]
  | store r m hop hread hreg hflag huse =>
    cases h
    rw [storeWrites_of_store hop huse]
    rfl
  | transfer src dst hne hop =>
    cases h
    obtain ⟨-, -, -, -, -, hmem⟩ := transferReg_effect modelParams.transferSetsNZ src dst s
    rw [hmem, storeWrites_of_operand_ne_memory (by simp [hop]), applyWrites]
  | add d r hop =>
    cases h
    obtain ⟨-, -, -, -, -, hmem⟩ := addToReg_effect d r s
    rw [hmem, storeWrites_of_operand_ne_memory (by simp [hop]), applyWrites]
  | clear g hg hop | set g hg hop =>
    cases h
    rw [storeWrites_of_operand_ne_memory (by simp [hop])]
    rfl
  | nop | jump =>
    cases h
    rfl
  | unimplemented => cases h

theorem exists_decode_of_step {s t : State} (h : step s = .next t) :
    ∃ i tail, decode (fetchBytes s) = .ok (i, tail) ∧ exec i s = .next t := by
  unfold step at h
  split at h
  · next i tail hdec => exact ⟨i, tail, hdec, h⟩
  · cases h

/-- Settles O35: the accesses are reads and then the store's write, which is the memory's change. -/
theorem portWritesAreTheMemoryChange : Obligations.PortWritesAreTheMemoryChange := by
  intro s t h
  obtain ⟨i, tail, hdec, hexec⟩ := exists_decode_of_step h
  obtain ⟨reads, hreads⟩ := accessesAfterOpcode_eq_reads_append i s
  have htrace : busTrace s = (s.pc :: reads).map .read ++ storeWrites i s := by
    rw [busTrace_of_decode hdec, hreads, List.map_cons, List.cons_append]
  rw [htrace, applyWrites_reads_append]
  refine ⟨mem_of_exec hexec, s.pc :: reads, ?_⟩
  rcases storeWrites_cases i s with hnil | ⟨m, r, -, -, hwrite⟩
  · exact .inl (by rw [hnil, List.append_nil])
  · exact .inr ⟨_, _, by rw [hwrite]⟩

end Sys2Proof.Proofs
end

section
/-! A step over another memory (O36): the registers and `PC` fix which cells it reads, and those cells fix what it
does. -/

namespace Sys2Proof.Proofs

open Sys2Proof.Machine Sys2Proof.Claims Sys2Proof.Laws

/-! ## The operations over another memory -/

theorem effectiveAddress_withMem (m : MemOperand) (s : State) (mem : Memory) :
    effectiveAddress m { s with mem := mem } = effectiveAddress m s :=
  effectiveAddress_congr fun r _ => by cases r <;> rfl

theorem dataAccess_withMem (use : DataUse) (ea : Addr) (s : State) (mem : Memory) :
    dataAccess use ea { s with mem := mem } = dataAccess use ea s := by
  cases use with
  | reads | untouched => rfl
  | writes r => cases r <;> rfl

theorem accessesAfterOpcode_withMem (i : Instr) (s : State) (mem : Memory) :
    accessesAfterOpcode i { s with mem := mem } = accessesAfterOpcode i s := by
  cases hop : i.operand with
  | memory m => simp only [accessesAfterOpcode_of_memory hop, effectiveAddress_withMem, dataAccess_withMem]
  | immediate b1 => simp only [accessesAfterOpcode_of_immediate hop]
  | implied | indirectX | indirectY => simp only [accessesAfterOpcode, hop, resolve]

theorem loadReg_withMem {src : Source} {s : State} {mem : Memory} (r : Reg)
    (hval : sourceValue src { s with mem := mem } = sourceValue src s) :
    loadReg r src { s with mem := mem } = { loadReg r src s with mem := mem } := by
  unfold loadReg
  rw [hval]
  cases r <;> rfl

theorem storeReg_withMem (r : Reg) (m : MemOperand) (s : State) (mem : Memory) :
    storeReg r m { s with mem := mem }
      = { storeReg r m s with mem := mem.write (effectiveAddress m s).toNat (getReg r s) } := by
  unfold storeReg
  rw [effectiveAddress_withMem]
  cases r <;> rfl

theorem transferReg_withMem (src dst : Reg) (s : State) (mem : Memory) :
    transferReg false src dst { s with mem := mem } = { transferReg false src dst s with mem := mem } := by
  cases src <;> cases dst <;> rfl

theorem addToReg_withMem (d : Byte) (r : Reg) (s : State) (mem : Memory) :
    addToReg d r { s with mem := mem } = { addToReg d r s with mem := mem } := by
  cases r <;> rfl

/-- A load takes the same value wherever the cells it reads are the same. -/
theorem sourceValue_withMem {i : Instr} {src : Source} {s : State} {mem : Memory} (hop : i.operand = sourceOperand src)
    (huse : dataUse i.mnemonic = .reads)
    (hread : ∀ k, Access.read k ∈ accessesAfterOpcode i s → readByte k { s with mem := mem } = readByte k s) :
    sourceValue src { s with mem := mem } = sourceValue src s := by
  cases src with
  | immediate b1 => rfl
  | memory m =>
    have hmem : Access.read (effectiveAddress m s) ∈ accessesAfterOpcode i s := by
      simp [accessesAfterOpcode_of_memory hop, huse, dataAccess]
    rw [sourceValue, effectiveAddress_withMem]
    exact hread _ hmem

theorem exec_withMem {i : Instr} {s : State} {mem : Memory}
    (hread : ∀ k, Access.read k ∈ accessesAfterOpcode i s → readByte k { s with mem := mem } = readByte k s) :
    exec i { s with mem := mem }
      = mapNext (fun t => { t with mem := applyWrites (storeWrites i s) mem }) (exec i s) := by
  have hshape := exec_shape i
  generalize exec i = f at hshape
  cases hshape with
  | load r src hop hread' hreg hflag huse =>
    rw [storeWrites_of_dataUse_ne_writes (by simp [huse])]
    exact congrArg _ (loadReg_withMem r (sourceValue_withMem hop huse hread))
  | store r m hop hread' hreg hflag huse =>
    rw [storeWrites_of_store hop huse]
    exact congrArg _ (storeReg_withMem r m s mem)
  | transfer src dst hne hop =>
    rw [storeWrites_of_operand_ne_memory (by simp [hop])]
    exact congrArg _ (transferReg_withMem src dst s mem)
  | add d r hop =>
    rw [storeWrites_of_operand_ne_memory (by simp [hop])]
    exact congrArg _ (addToReg_withMem d r s mem)
  | clear g hg hop | set g hg hop =>
    rw [storeWrites_of_operand_ne_memory (by simp [hop])]
    rfl
  | nop | jump | unimplemented => rfl

/-! ## The fetch over another memory -/

theorem readBytes_of_operandReads {s t : State} {n : Nat} {k : Addr}
    (h : ∀ j, Access.read j ∈ operandReads n k → readByte j t = readByte j s) : readBytes n k t = readBytes n k s := by
  induction n generalizing k with
  | zero => rfl
  | succ n ih =>
    rw [readBytes, readBytes, h k (by simp [operandReads]), ih fun j hj => h j (by simp [operandReads, hj])]

/-- Outside the two indirect modes, every operand byte of the fetch is among the reads (R59). -/
theorem operandReads_subset_accessesAfterOpcode {i : Instr} (hmode : i.operand.mode.unimplemented = false) (s : State) :
    operandReads (i.operand.mode.nbytes - 1) (s.pc + 1#16) ⊆ accessesAfterOpcode i s := by
  cases hop : i.operand with
  | implied => exact List.nil_subset _
  | immediate b1 =>
    rw [accessesAfterOpcode_of_immediate hop]
    exact List.Subset.refl _
  | memory m =>
    rw [accessesAfterOpcode_of_memory hop]
    exact List.subset_append_left _ _
  | indirectX | indirectY => simp [hop, Operand.mode, Mode.unimplemented] at hmode

theorem fetchBytes_of_reads {i : Instr} {s t : State} (hpc : t.pc = s.pc) (hopcode : opcodeAt t = opcodeAt s)
    (hcount : operandCount modelParams (opcodeAt s) = i.operand.mode.nbytes - 1)
    (hmode : i.operand.mode.unimplemented = false)
    (hread : ∀ k, Access.read k ∈ accessesAfterOpcode i s → readByte k t = readByte k s) :
    fetchBytes t = fetchBytes s := by
  have hoperand : readBytes (operandCount modelParams (opcodeAt s)) (s.pc + 1#16) t
      = readBytes (operandCount modelParams (opcodeAt s)) (s.pc + 1#16) s :=
    readBytes_of_operandReads fun k hk =>
      hread k (operandReads_subset_accessesAfterOpcode hmode s (hcount ▸ hk))
  calc fetchBytes t = opcodeAt t :: readBytes (operandCount modelParams (opcodeAt t)) (t.pc + 1#16) t := rfl
    _ = opcodeAt s :: readBytes (operandCount modelParams (opcodeAt s)) (s.pc + 1#16) s := by
      rw [hopcode, hpc, hoperand]

/-! ## The step over another memory -/

theorem exec_of_unimplemented {i : Instr} (hmode : i.operand.mode.unimplemented = true) (s : State) :
    exec i s = .fault (.unimplementedMode (opcodeOf modelParams i) s.pc) := by
  cases i with
  | ldaIndirectX | ldaIndirectY | staIndirectX | staIndirectY => rfl
  | _ => cases hmode

/-- On an indirect-mode row the opcode alone decides the step: the operand byte is in the term and never used. -/
theorem step_and_busTrace_of_unimplemented {s : State} {f : Form} (hf : formOf modelParams (opcodeAt s) = some f)
    (hmode : f.entry.mode.unimplemented = true) :
    step s = .fault (.unimplementedMode (opcodeAt s) s.pc) ∧ busTrace s = [.read s.pc] := by
  obtain ⟨i, hdec, hi⟩ := exists_decode_fetchBytes hf
  obtain ⟨hop, -⟩ := opcodeOf_and_entry_of_builds hf hi
  have himode : i.operand.mode.unimplemented = true := by rw [operand_mode_of_builds hf hi, hmode]
  rw [step_of_decode_fetchBytes hdec, exec_of_unimplemented himode, hop, busTrace_of_decode hdec,
    accessesAfterOpcode_of_unimplemented himode]
  exact ⟨rfl, rfl⟩

theorem step_and_busTrace_withMem_of_fetchBytes {i : Instr} {tail : List Byte} {s : State} {mem : Memory}
    (hdec : decode (fetchBytes s) = .ok (i, tail)) (hfetch : fetchBytes { s with mem := mem } = fetchBytes s)
    (hread : ∀ k, Access.read k ∈ accessesAfterOpcode i s → readByte k { s with mem := mem } = readByte k s) :
    busTrace { s with mem := mem } = busTrace s
    ∧ step { s with mem := mem } = mapNext (fun t => { t with mem := applyWrites (busTrace s) mem }) (step s) := by
  have hdec' : decode (fetchBytes { s with mem := mem }) = .ok (i, tail) := hfetch ▸ hdec
  have hwrites : applyWrites (busTrace s) mem = applyWrites (storeWrites i s) mem := by
    rw [busTrace_of_decode hdec]
    exact applyWrites_accessesAfterOpcode i s mem
  refine ⟨?_, ?_⟩
  · rw [busTrace_of_decode hdec', busTrace_of_decode hdec, accessesAfterOpcode_withMem]
  · rw [step_of_decode_fetchBytes hdec', step_of_decode_fetchBytes hdec, hwrites, exec_withMem hread]

/-- Settles O36: the opcode's row decides. Without a row, or with an indirect mode, the opcode is all that is used;
otherwise the reads hold the whole fetch and the data. -/
theorem stepDependsOnlyOnCellsItReads : Obligations.StepDependsOnlyOnCellsItReads := by
  intro s mem hread
  have hopcode : opcodeAt { s with mem := mem } = opcodeAt s := hread s.pc List.mem_cons_self
  cases hf : formOf modelParams (opcodeAt s) with
  | none =>
    have hf' : formOf modelParams (opcodeAt { s with mem := mem }) = none := hopcode ▸ hf
    rw [busTrace_of_formOf_none hf', busTrace_of_formOf_none hf, step_of_formOf_none hf', step_of_formOf_none hf,
      hopcode]
    exact ⟨rfl, rfl⟩
  | some f =>
    have hf' : formOf modelParams (opcodeAt { s with mem := mem }) = some f := hopcode ▸ hf
    cases hmode : f.entry.mode.unimplemented with
    | true =>
      obtain ⟨hstep, htrace⟩ := step_and_busTrace_of_unimplemented hf hmode
      obtain ⟨hstep', htrace'⟩ := step_and_busTrace_of_unimplemented hf' hmode
      rw [hstep, htrace, hstep', htrace', hopcode]
      exact ⟨rfl, rfl⟩
    | false =>
      obtain ⟨i, hdec, hi⟩ := exists_decode_fetchBytes hf
      have himode : i.operand.mode.unimplemented = false := by rw [operand_mode_of_builds hf hi, hmode]
      have hdata : ∀ k, Access.read k ∈ accessesAfterOpcode i s → readByte k { s with mem := mem } = readByte k s :=
        fun k hk => hread k (by rw [busTrace_of_decode hdec]; exact List.mem_cons_of_mem _ hk)
      exact step_and_busTrace_withMem_of_fetchBytes hdec
        (fetchBytes_of_reads rfl hopcode (operandCount_of_builds hf hi) himode hdata) hdata

end Sys2Proof.Proofs
end

section
/-! A store seen from outside, at the step boundary after it (R66): the cell it wrote, and no other. -/

namespace Sys2Proof.Proofs

open Sys2Proof.Machine Sys2Proof.Claims Sys2Proof.Laws

/-- An instruction that writes a register to its memory operand is a store and nothing else. -/
theorem exec_of_store {i : Instr} {m : MemOperand} {r : Reg} (hop : i.operand = .memory m)
    (huse : dataUse i.mnemonic = .writes r) (s : State) : exec i s = .next (storeReg r m s) := by
  have hshape := exec_shape i
  generalize exec i = f at hshape
  cases hshape with
  | store r' m' hop' _ _ _ huse' =>
    cases hop.symm.trans hop'
    cases huse.symm.trans huse'
    rfl
  | load r' src _ _ _ _ huse' => cases huse.symm.trans huse'
  | transfer _ _ _ hop' | add _ _ hop' | clear _ _ hop' | set _ _ hop' => cases hop.symm.trans hop'
  | nop | jump => cases huse
  | unimplemented op hmode => simp [hop, Operand.mode] at hmode

theorem readByte_storeReg_same {s : State} (hwf : s.mem.wf = true) (r : Reg) (m : MemOperand) :
    readByte (effectiveAddress m s) (storeReg r m s) = getReg r s :=
  readByte_writeByte_same hwf _ _

theorem readByte_storeReg_ne {k : Addr} {m : MemOperand} {s : State} (r : Reg) (h : k ≠ effectiveAddress m s) :
    readByte k (storeReg r m s) = readByte k s :=
  readByte_writeByte_ne _ s h

theorem tick_of_step {s t : State} (h : step s = .next t) : tick s = t := by
  rw [tick, h, stateAfter]

theorem tickResult_of_step {s t : State} (h : step s = .next t) : tickResult s = some .ok := by
  rw [tickResult, h, resultOf]

/-- A device reads the stored register at the boundary after the store. -/
theorem hostReports_tick_readMemory_of_store {s : State} {i : Instr} {m : MemOperand} {r : Reg} {tail : List Byte}
    (hwf : s.mem.wf = true) (hdec : decode (fetchBytes s) = .ok (i, tail)) (hop : i.operand = .memory m)
    (huse : dataUse i.mnemonic = .writes r) :
    hostReports [.tick, .readMemory (effectiveAddress m s)] s = [.stepped (some .ok), .byte (getReg r s)] := by
  have hstep : step s = .next (storeReg r m s) := (step_of_decode_fetchBytes hdec).trans (exec_of_store hop huse s)
  simp only [hostReports, hostReport, applyHostOp, tick_of_step hstep, tickResult_of_step hstep,
    readByte_storeReg_same hwf]

theorem readByte_tick_of_not_stored {s : State} {j : Addr}
    (h : ∀ i rest m r, decode (fetchBytes s) = .ok (i, rest) → i.operand = .memory m →
      dataUse i.mnemonic = .writes r → j ≠ effectiveAddress m s) :
    readByte j (tick s) = readByte j s := by
  rcases step_eq_next_tick_or_tick_eq s with hstep | hsame
  · obtain ⟨i, tail, hdec, hexec⟩ := exists_decode_of_step hstep
    rcases storeWrites_cases i s with hnil | ⟨m, r, hop, huse, -⟩
    · rw [readByte, mem_of_exec hexec, hnil, applyWrites, readByte]
    · have hstore := exec_of_store hop huse s
      rw [tick_of_step ((step_of_decode_fetchBytes hdec).trans hstore)]
      exact readByte_storeReg_ne r (h i tail m r hdec hop huse)
  · rw [hsame]

theorem runHostOps_filter_drives (ops : List HostOp) (s : State) :
    runHostOps ops s = runHostOps (ops.filter HostOp.drives) s := by
  induction ops generalizing s with
  | nil => rfl
  | cons op rest ih =>
    cases hdrives : op.drives with
    | true =>
      rw [List.filter_cons_of_pos hdrives]
      exact ih _
    | false =>
      rw [List.filter_cons_of_neg (by simp [hdrives]), runHostOps, applyHostOp_of_not_drives hdrives]
      exact ih s

/-- Settles O41: reads leave the state alone, and a step's whole change of memory is its store. -/
theorem hostReadsSeeCompletedSteps : Obligations.HostReadsSeeCompletedSteps :=
  ⟨fun ops k s => hostReports_append ops [.readMemory k, .inspect] s, runHostOps_filter_drives,
    fun _ _ _ _ _ hwf hdec hop huse => hostReports_tick_readMemory_of_store hwf hdec hop huse,
    fun _ _ h => readByte_tick_of_not_stored h⟩

end Sys2Proof.Proofs
end

section
/-! A store and the step after it: the stored byte loaded back, fetched as the next opcode (R68), or met as the
store's own operand (R69). -/

namespace Sys2Proof.Proofs

open Sys2Proof.Machine Sys2Proof.Claims Sys2Proof.Laws

/-! ## The stored byte as the next opcode -/

/-- An encoding of one byte has no operand. -/
theorem operand_of_encode_singleton {i : Instr} {op : Byte} (h : encode i = [op]) :
    i.operand = .implied ∧ opcodeOf modelParams i = op := by
  obtain ⟨hop, hbytes⟩ : opcodeOf modelParams i = op ∧ i.operand.bytes = [] := by
    simpa [encode, encodeWith] using h
  refine ⟨?_, hop⟩
  generalize i.operand = o at hbytes
  cases o with
  | implied => rfl
  | immediate | indirectX | indirectY => cases hbytes
  | memory m => cases m <;> cases hbytes

/-- The opcode of an instruction without operand leads back to it (R86). -/
theorem formOf_opcodeOf_of_implied {i : Instr} (h : i.operand = .implied) :
    formOf modelParams (opcodeOf modelParams i) = some (.f1 i) := by
  cases i with
  | tax | txa | tay | tya | inx | iny | dex | dey | incA | clc | sec | cli | sei | cld | sed | clv | nop => rfl
  | _ => cases h

theorem step_of_encode_singleton {i : Instr} {s : State} (h : encode i = [opcodeAt s]) : step s = exec i s := by
  obtain ⟨himplied, hop⟩ := operand_of_encode_singleton h
  exact step_of_f1 (hop ▸ formOf_opcodeOf_of_implied himplied)

/-- Settles O47: the store leaves its register at the next `PC`, where the fetch takes it for an opcode. -/
theorem storedByteIsFetchedByNextStep : Obligations.StoredByteIsFetchedByNextStep := by
  intro i m r s t hwf hop huse hea hexec
  obtain rfl : storeReg r m s = t := by simpa [exec_of_store hop huse] using hexec
  have hopcode : opcodeAt (storeReg r m s) = getReg r s := by
    rw [opcodeAt, ← hea, readByte_storeReg_same hwf]
  refine ⟨hopcode, fun hnone => ?_, fun j hj => step_of_encode_singleton (hopcode.symm ▸ hj)⟩
  have hform : formOf modelParams (getReg r s) = none := Option.map_eq_none_iff.mp hnone
  rw [step_of_formOf_none (hopcode.symm ▸ hform), hopcode]

/-! ## STA and LDA Absolute in the integer arithmetic of the statements -/

theorem pcPlus_eq (n : Nat) (s : State) : pcPlus n s = s.pc + BitVec.ofNat 16 n :=
  ofNat_toNat_add_mod s.pc n

theorem pcPlus_zero (s : State) : pcPlus 0 s = s.pc := by
  rw [pcPlus_eq, BitVec.add_zero]

theorem exec_staAbsolute (base : Addr) (s : State) :
    exec (.staAbsolute base) s = .next (storeReg .a (.absolute base) s) := rfl

theorem exec_ldaAbsolute (base : Addr) (s : State) :
    exec (.ldaAbsolute base) s = .next (loadReg .a (.memory (.absolute base)) s) := rfl

theorem step_of_staAbsolute {s : State} (h : opcodeAt s = 0x8D#8) : step s = exec (.staAbsolute (operand16 s)) s := by
  have hform : formOf modelParams 0x8D#8 = some (.f3 .staAbsolute) := rfl
  exact step_of_f3 (h ▸ hform)

theorem step_of_ldaAbsolute {s : State} (h : opcodeAt s = 0xAD#8) : step s = exec (.ldaAbsolute (operand16 s)) s := by
  have hform : formOf modelParams 0xAD#8 = some (.f3 .ldaAbsolute) := rfl
  exact step_of_f3 (h ▸ hform)

theorem operand16_of_operands {s : State} {lo hi : Byte} (hlo : operand1 s = lo) (hhi : operand2 s = hi) :
    operand16 s = BitVec.ofNat 16 (lo.toNat + 256 * hi.toNat) := by
  rw [operand16, hlo, hhi]

/-- `SetNZ` in the spec's integer arithmetic (R119). -/
theorem setNZ_eq_withNZ (v : Byte) (f : Flags) : f.setNZ v = withNZ v f := by
  have hz : decide (v = 0#8) = decide (v.toNat = 0) := by
    simp [← BitVec.toNat_inj]
  have hn : v.getLsbD 7 = decide (128 ≤ v.toNat) := BitVec.msb_eq_decide v
  rw [Flags.setNZ, withNZ, hz, hn]

/-! ## A store onto its own operand -/

/-- Settles O48: the store leaves both neighbours of the low operand byte, the opcode and the high operand byte. -/
theorem storeOntoOwnOperandExecutesAsFetched : Obligations.StoreOntoOwnOperandExecutesAsFetched := by
  intro s t hwf hopcode hoperand hstep
  rw [step_of_staAbsolute hopcode, hoperand, exec_staAbsolute] at hstep
  cases hstep
  generalize ht : storeReg .a (.absolute (pcPlus 1 s)) s = t
  have hlow : operand1 (setPC s.pc t) = s.a := by
    rw [← ht]
    exact readByte_storeReg_same hwf .a (.absolute (pcPlus 1 s))
  have hframe : ∀ k, k ≠ pcPlus 1 s → readByte k t = readByte k s := fun k hk => by
    rw [← ht]
    exact readByte_storeReg_ne .a hk
  have hopcode' : opcodeAt (setPC s.pc t) = 0x8D#8 :=
    (hframe s.pc (by simp [pcPlus_eq])).trans hopcode
  have hhigh : operand2 (setPC s.pc t) = operand2 s := hframe (pcPlus 2 s) (by simp [pcPlus_eq])
  refine ⟨by rw [← ht]; rfl, by rw [← ht, pcPlus_eq 3]; rfl, hlow, hframe, ?_⟩
  rw [step_of_staAbsolute hopcode', operand16_of_operands hlow hhigh]

/-! ## A store and a load of the same address -/

theorem pcPlus_storeReg (n : Nat) (r : Reg) (m : MemOperand) (s : State) :
    pcPlus n (storeReg r m s) = pcPlus (m.mode.nbytes + n) s := by
  obtain ⟨-, -, -, hpc, -⟩ := storeReg_effect r m s
  rw [pcPlus_eq, hpc, pcPlus_eq, BitVec.add_assoc, ← BitVec.ofNat_add]

/-- What is stored is loaded back, and described by `Z` and `N`. -/
theorem loadReg_storeReg_absolute {s : State} (hwf : s.mem.wf = true) (r : Reg) (base : Addr) :
    let u := loadReg r (.memory (.absolute base)) (storeReg r (.absolute base) s)
    getReg r u = getReg r s ∧ readByte base u = getReg r s
    ∧ u.flags = withNZ (getReg r s) s.flags ∧ u.pc = pcPlus 6 s := by
  intro u
  have hvalue : sourceValue (.memory (.absolute base)) (storeReg r (.absolute base) s) = getReg r s :=
    readByte_storeReg_same hwf r (.absolute base)
  obtain ⟨hreg, -, hflags, -, hpc, hmem⟩ := loadReg_effect r (.memory (.absolute base)) (storeReg r (.absolute base) s)
  refine ⟨hreg.trans hvalue, ?_, ?_, ?_⟩
  · rw [readByte, hmem]
    exact hvalue
  · rw [hflags, hvalue, setNZ_eq_withNZ]
    rfl
  · rw [hpc, ← pcPlus_eq, pcPlus_storeReg]
    rfl

/-- Settles O46: the store leaves the six instruction bytes, so the load that follows names the same cell. -/
theorem storeThenLoadReturnsValue : Obligations.StoreThenLoadReturnsValue := by
  intro s lo hi hwf hcode hout
  generalize hk : BitVec.ofNat 16 (lo.toNat + 256 * hi.toNat) = k
  have hne : ∀ n, n < 6 → pcPlus n s ≠ k := fun n hn e => hout n hn <| by
    have he : (s.pc.toNat + n) % 65536 % 65536 = (lo.toNat + 256 * hi.toNat) % 65536 := by
      simpa [pcPlus] using congrArg BitVec.toNat (e.trans hk.symm)
    omega
  generalize ht : storeReg .a (.absolute k) s = t
  have hcode' : ∀ n (hn : 3 + n < 6), readByte (pcPlus n t) t = [0x8D#8, lo, hi, 0xAD#8, lo, hi][3 + n] :=
    fun n hn => by
      rw [← ht, pcPlus_storeReg n .a (.absolute k) s]
      exact (readByte_storeReg_ne .a (hne (3 + n) hn)).trans (hcode (3 + n) hn)
  have hfirst : step s = .next t := by
    have hopcode : opcodeAt s = 0x8D#8 := by
      rw [opcodeAt, ← pcPlus_zero]
      exact hcode 0 (by omega)
    have hlow : operand1 s = lo := hcode 1 (by omega)
    have hhigh : operand2 s = hi := hcode 2 (by omega)
    rw [step_of_staAbsolute hopcode, operand16_of_operands hlow hhigh, hk, exec_staAbsolute, ht]
  have hsecond : step t = .next (loadReg .a (.memory (.absolute k)) t) := by
    have hopcode : opcodeAt t = 0xAD#8 := by
      rw [opcodeAt, ← pcPlus_zero]
      exact hcode' 0 (by omega)
    have hlow : operand1 t = lo := hcode' 1 (by omega)
    have hhigh : operand2 t = hi := hcode' 2 (by omega)
    rw [step_of_ldaAbsolute hopcode, operand16_of_operands hlow hhigh, hk, exec_ldaAbsolute]
  have hticks : ticks 2 s = loadReg .a (.memory (.absolute k)) (storeReg .a (.absolute k) s) := by
    rw [ticks_succ, ticks_succ, ticks_zero, tick_of_step hfirst, tick_of_step hsecond, ht]
  refine ⟨tickResult_of_step hfirst, ?_, ?_⟩
  · rw [tick_of_step hfirst]
    exact tickResult_of_step hsecond
  · rw [hticks, cell, hk]
    exact loadReg_storeReg_absolute hwf .a k

end Sys2Proof.Proofs
end

section
/-! The encoder and the decoder are inverse on the rows of the opcode map (R80 to R87, R91): an instruction's opcode
leads to the row that builds it, and the row's format takes exactly the operand bytes the encoder writes. -/

namespace Sys2Proof.Proofs

open Sys2Proof.Machine Sys2Proof.Claims Sys2Proof.Laws

/-! ## The rows under every setting of the parameters -/

theorem opcodeRows_subset (p : Params) :
    opcodeRows p ⊆ loadRows ++ storeRows ++ registerRows ++ indirectRows ++ [(p.opcIncA, .f1 .incA)] := by
  unfold opcodeRows
  split
  · exact List.Subset.refl _
  · intro row h
    simp only [List.append_nil, List.mem_append] at h ⊢
    tauto

/-- The parameters are legal when INC A's byte is not one of the fixed 48 (R185). -/
theorem legal_iff (p : Params) : p.legal = true ↔ p.opcIncA ∉ otherAssignedBytes := by
  simp [Params.legal]

theorem wellFormed_iff (p : Params) (i : Instr) :
    i.wellFormed p = true
      ↔ p.legal = true ∧ (i.operand.mode.unimplemented = true → p.indirectEntriesPresent = true) := by
  cases hmode : i.operand.mode.unimplemented <;> simp [Instr.wellFormed, hmode]

theorem opcIncA_ne_of_mem {p : Params} (hp : p.legal = true) {row : Byte × Form}
    (hrow : row ∈ loadRows ++ storeRows ++ registerRows ++ indirectRows) : p.opcIncA ≠ row.1 :=
  fun e => (legal_iff p).mp hp (e ▸ List.mem_map_of_mem hrow)

/-- INC A's row is the last, and under legal parameters no row before it has its byte. -/
theorem formOf_opcIncA {p : Params} (hp : p.legal = true) : formOf p p.opcIncA = some (.f1 .incA) := by
  have hbefore : List.lookup p.opcIncA (loadRows ++ storeRows ++ registerRows
      ++ if p.indirectEntriesPresent then indirectRows else []) = none := by
    rw [List.lookup_eq_none_iff]
    intro row hrow
    refine bne_iff_ne.mpr (opcIncA_ne_of_mem hp ?_)
    split at hrow
    · exact hrow
    · exact List.mem_append_left _ (by simpa using hrow)
  rw [formOf, opcodeRows, List.lookup_append, hbefore]
  simp

theorem formOf_of_mem_indirectRows {p : Params} (hswitch : p.indirectEntriesPresent = true) {op : Byte} {f : Form}
    (h : (op, f) ∈ indirectRows) : formOf p op = some f := by
  rw [formOf, opcodeRows, hswitch]
  simp only [indirectRows, List.mem_cons, Prod.mk.injEq, List.not_mem_nil, or_false] at h
  obtain ⟨rfl, rfl⟩ | ⟨rfl, rfl⟩ | ⟨rfl, rfl⟩ | ⟨rfl, rfl⟩ := h <;> rfl

/-- Only the four indirect rows have a mode that faults (R91). -/
theorem indirectEntriesPresent_of_unimplemented {p : Params} {op : Byte} {f : Form} (hf : formOf p op = some f)
    (hmode : f.entry.mode.unimplemented = true) : p.indirectEntriesPresent = true := by
  have hworking : ∀ row ∈ loadRows ++ storeRows ++ registerRows ++ [(p.opcIncA, .f1 .incA)],
      row.2.entry.mode.unimplemented = false := by
    simp [loadRows, storeRows, registerRows, Form.entry, Instr.entry, Instr.operand, Operand.mode, MemOperand.mode,
      Mode.unimplemented]
  by_contra hswitch
  have hrow := mem_of_formOf hf
  simp only [opcodeRows, hswitch] at hrow
  simp [hworking (op, f) (by simpa using hrow)] at hmode

/-! ## The operand bytes of a row's format -/

/-- The encoder writes, for each instruction the format builds, the bytes the format takes (R81). -/
def WritesWhatItTakes : Form → Prop
  | .f1 i => i.operand.bytes = []
  | .f2 mk => ∀ b1, (mk b1).operand.bytes = [b1]
  | .f3 mk => ∀ base, (mk base).operand.bytes = bytesOfAddr base

theorem writesWhatItTakes_of_formOf {p : Params} {op : Byte} {f : Form} (hf : formOf p op = some f) :
    WritesWhatItTakes f := by
  have hrows : ∀ row ∈ loadRows ++ storeRows ++ registerRows ++ indirectRows ++ [(p.opcIncA, .f1 .incA)],
      WritesWhatItTakes row.2 := by
    simp [loadRows, storeRows, registerRows, indirectRows, WritesWhatItTakes, Instr.operand, Operand.bytes,
      MemOperand.bytes]
  exact hrows (op, f) (opcodeRows_subset p (mem_of_formOf hf))

/-! ## Decoding an encoding -/

theorem decodeWith_of_builds {p : Params} {op : Byte} {f : Form} {i : Instr} (hf : formOf p op = some f)
    (hi : Builds f i) (rest : List Byte) : decodeWith p (op :: (i.operand.bytes ++ rest)) = .ok (i, rest) := by
  have hbytes := writesWhatItTakes_of_formOf hf
  cases hi with
  | f1 i => simp [decodeWith, hf, show i.operand.bytes = [] from hbytes]
  | f2 mk b1 => simp [decodeWith, hf, hbytes b1]
  | f3 mk base => simp [decodeWith, hf, hbytes base, bytesOfAddr, addrOfBytes_extract]

/-- The opcode of every instruction that exists leads to the row that builds it (R86, R87). -/
theorem exists_formOf_opcodeOf {p : Params} {i : Instr} (h : i.wellFormed p = true) :
    ∃ f, formOf p (opcodeOf p i) = some f ∧ Builds f i := by
  obtain ⟨hlegal, hswitch⟩ := (wellFormed_iff p i).mp h
  cases i with
  | ldaImmediate b1 | ldaZeroPage b1 | ldaZeroPageX b1 | ldxImmediate b1 | ldxZeroPage b1 | ldxZeroPageY b1
  | ldyImmediate b1 | ldyZeroPage b1 | ldyZeroPageX b1 | staZeroPage b1 | staZeroPageX b1 | stxZeroPage b1
  | stxZeroPageY b1 | styZeroPage b1 | styZeroPageX b1 => exact ⟨_, rfl, .f2 _ b1⟩
  | ldaAbsolute base | ldaAbsoluteX base | ldaAbsoluteY base | ldxAbsolute base | ldxAbsoluteY base
  | ldyAbsolute base | ldyAbsoluteX base | staAbsolute base | staAbsoluteX base | staAbsoluteY base
  | stxAbsolute base | styAbsolute base | jmpAbsolute base => exact ⟨_, rfl, .f3 _ base⟩
  | tax | txa | tay | tya | inx | iny | dex | dey | clc | sec | cli | sei | cld | sed | clv | nop =>
    exact ⟨_, rfl, .f1 _⟩
  | ldaIndirectX b1 | ldaIndirectY b1 | staIndirectX b1 | staIndirectY b1 =>
    exact ⟨_, formOf_of_mem_indirectRows (hswitch rfl) (by simp [indirectRows, opcodeOf]), .f2 _ b1⟩
  | incA => exact ⟨_, formOf_opcIncA hlegal, .f1 _⟩

/-- Settles O8: the instruction's row is found under its opcode, and takes the operand bytes written after it. -/
theorem decodeAfterEncode : Obligations.DecodeAfterEncode := by
  intro p i rest h
  obtain ⟨f, hf, hi⟩ := exists_formOf_opcodeOf h
  exact decodeWith_of_builds hf hi rest

/-! ## Encoding what was decoded -/

theorem exists_builds_of_decodeWith {p : Params} {bytes rest : List Byte} {i : Instr}
    (h : decodeWith p bytes = .ok (i, rest)) :
    ∃ op f, formOf p op = some f ∧ Builds f i ∧ bytes = op :: (i.operand.bytes ++ rest) := by
  match bytes with
  | [] => simp [decodeWith] at h
  | op :: tail =>
    cases hf : formOf p op with
    | none => simp [decodeWith, hf] at h
    | some f =>
      have hbytes := writesWhatItTakes_of_formOf hf
      refine ⟨op, f, hf, ?_⟩
      match f, tail with
      | .f1 j, tail =>
        obtain ⟨rfl, rfl⟩ : j = i ∧ tail = rest := by simpa [decodeWith, hf] using h
        exact ⟨.f1 j, by rw [show j.operand.bytes = [] from hbytes]; rfl⟩
      | .f2 mk, [] => simp [decodeWith, hf] at h
      | .f2 mk, b1 :: more =>
        obtain ⟨rfl, rfl⟩ : mk b1 = i ∧ more = rest := by simpa [decodeWith, hf] using h
        exact ⟨.f2 mk b1, by rw [hbytes b1]; rfl⟩
      | .f3 mk, [] => simp [decodeWith, hf] at h
      | .f3 mk, [b1] => simp [decodeWith, hf] at h
      | .f3 mk, b1 :: b2 :: more =>
        obtain ⟨rfl, rfl⟩ : mk (addrOfBytes b1 b2) = i ∧ more = rest := by simpa [decodeWith, hf] using h
        exact ⟨.f3 mk _, by rw [hbytes, bytesOfAddr_addrOfBytes]; rfl⟩

/-- Settles O9: a decoded instruction was built by its opcode's row, which has that opcode and no other. -/
theorem encodeAfterDecode : Obligations.EncodeAfterDecode := by
  intro p bytes rest i hlegal h
  obtain ⟨op, f, hf, hi, rfl⟩ := exists_builds_of_decodeWith h
  obtain ⟨hop, -⟩ := opcodeOf_and_entry_of_builds hf hi
  refine ⟨by rw [encodeWith, hop]; rfl, (wellFormed_iff p i).mpr ⟨hlegal, fun hmode => ?_⟩⟩
  exact indirectEntriesPresent_of_unimplemented hf (operand_mode_of_builds hf hi ▸ hmode)

end Sys2Proof.Proofs
end

section
/-! The entries of the opcode table (R83, R85, R91), and words written out from it (R86). -/

namespace Sys2Proof.Proofs

open Sys2Proof.Machine Sys2Proof.Claims Sys2Proof.Laws

/-- A row's entry is the entry of an instruction. -/
theorem exists_entry_eq (f : Form) : ∃ i : Instr, f.entry = i.entry := by
  cases f with
  | f1 i => exact ⟨i, rfl⟩
  | f2 mk => exact ⟨mk 0#8, rfl⟩
  | f3 mk => exact ⟨mk 0#16, rfl⟩

theorem exists_instr_of_opcodeTable {p : Params} {op : Byte} {e : Entry} (h : opcodeTable p op = some e) :
    ∃ i : Instr, e = i.entry := by
  obtain ⟨f, -, rfl⟩ := Option.map_eq_some_iff.mp h
  exact exists_entry_eq f

theorem nbytes_eq_lengthOf (m : Mode) : m.nbytes = lengthOf m := by
  cases m <;> rfl

theorem advances_eq_false_iff (m : Mnemonic) : m.advances = false ↔ m = .jmp := by
  cases m <;> decide

/-- Settles O10: an entry is made from its instruction's mode and mnemonic. -/
theorem entryLengthFollowsMode : Obligations.EntryLengthFollowsMode := by
  intro p op e h
  obtain ⟨i, rfl⟩ := exists_instr_of_opcodeTable h
  exact ⟨nbytes_eq_lengthOf i.operand.mode, advances_eq_false_iff i.mnemonic⟩

theorem exists_mem_indirectRows {op : Byte} (h : op.toNat ∈ [0x81, 0x91, 0xA1, 0xB1]) :
    ∃ f, (op, f) ∈ indirectRows := by
  have hmem : op.toNat ∈ indirectRows.map fun row => row.1.toNat := by
    simp only [indirectRows, List.map_cons, List.map_nil, List.mem_cons, List.not_mem_nil, or_false] at h ⊢
    tauto
  obtain ⟨⟨k, f⟩, hrow, hk⟩ := List.mem_map.mp hmem
  obtain rfl : k = op := BitVec.eq_of_toNat_eq hk
  exact ⟨f, hrow⟩

theorem entry_of_mem_indirectRows {op : Byte} {f : Form} (h : (op, f) ∈ indirectRows) :
    (f.entry.mode = .indirectX ∨ f.entry.mode = .indirectY) ∧ f.entry.nbytes = 2 := by
  have hrows : ∀ row ∈ indirectRows,
      (row.2.entry.mode = .indirectX ∨ row.2.entry.mode = .indirectY) ∧ row.2.entry.nbytes = 2 := by
    simp [indirectRows, Form.entry, Instr.entry, Instr.operand, Operand.mode, Mode.nbytes]
  exact hrows (op, f) h

/-- Without their entries the indirect bytes have no row: neither a working row nor INC A's has their bytes. -/
theorem formOf_eq_none_of_mem_indirectRows {p : Params} (hlegal : p.legal = true)
    (hswitch : p.indirectEntriesPresent = false) {op : Byte} {f : Form} (h : (op, f) ∈ indirectRows) :
    formOf p op = none := by
  have hop : op ∈ indirectRows.map Prod.fst := List.mem_map_of_mem h
  have hworking : ∀ k ∈ indirectRows.map Prod.fst, k ∉ (loadRows ++ storeRows ++ registerRows).map Prod.fst := by
    decide
  have hincA : p.opcIncA ≠ op := opcIncA_ne_of_mem hlegal (List.mem_append_right _ h)
  rw [formOf, List.lookup_eq_none_iff]
  intro row hrow
  refine bne_iff_ne.mpr ?_
  rintro rfl
  simp only [opcodeRows, hswitch] at hrow
  obtain hrow | rfl : row ∈ loadRows ++ storeRows ++ registerRows ∨ row = (p.opcIncA, .f1 .incA) := by
    simpa only [Bool.false_eq_true, if_false, List.append_nil, List.mem_append, List.mem_singleton] using hrow
  · exact hworking _ hop (List.mem_map_of_mem hrow)
  · exact hincA rfl

/-- Settles O12: the four bytes are those of `indirectRows`, which the switch puts into the map. -/
theorem indirectBytesFollowTheSwitch : Obligations.IndirectBytesFollowTheSwitch := by
  intro p op hlegal hop
  obtain ⟨f, hf⟩ := exists_mem_indirectRows hop
  obtain ⟨hmode, hlength⟩ := entry_of_mem_indirectRows hf
  refine ⟨fun hswitch => ⟨f.entry, ?_, hmode, hlength⟩, fun hswitch rest => ?_⟩
  · rw [opcodeTable, formOf_of_mem_indirectRows hswitch hf, Option.map_some]
  · rw [decodeWith, formOf_eq_none_of_mem_indirectRows hlegal hswitch hf]

/-- Settles O7: each word's opcode byte is looked up in the map of the spec's default parameters. -/
theorem specWordsDecode : Obligations.SpecWordsDecode :=
  ⟨rfl, rfl, rfl, rfl, rfl, rfl, rfl, rfl, rfl, rfl, rfl⟩

end Sys2Proof.Proofs
end

section
/-! The resolver in the spec's integer arithmetic (R82, R111 to R116). -/

namespace Sys2Proof.Proofs

open Sys2Proof.Machine Sys2Proof.Claims Sys2Proof.Laws

@[simp] theorem toNat_zext16 (b : Byte) : (zext16 b).toNat = b.toNat :=
  BitVec.toNat_setWidth_of_le (by decide)

/-- The machine's wrapping sums are the spec's sums modulo 256 and modulo 65536. -/
theorem toNat_effectiveAddress (m : MemOperand) (s : State) : (effectiveAddress m s).toNat = eaOf m s := by
  cases m with
  | zeroPage b1 => exact toNat_zext16 b1
  | absolute base => rfl
  | zeroPageX | zeroPageY | absoluteX | absoluteY =>
    simp only [effectiveAddress, eaOf, toNat_zext16, BitVec.toNat_add, Nat.reducePow]

theorem ofNat_eaOf (m : MemOperand) (s : State) : BitVec.ofNat 16 (eaOf m s) = effectiveAddress m s := by
  rw [← toNat_effectiveAddress, BitVec.ofNat_toNat, BitVec.setWidth_eq]

/-- Settles O13: the effective address is the integer expression, and the resolver answers with it. -/
theorem operandsAreAssembledUnsigned : Obligations.OperandsAreAssembledUnsigned := by
  intro s m b1
  rw [pcPlus_eq, ofNat_eaOf]
  exact ⟨toNat_effectiveAddress m s, rfl, rfl, rfl, rfl, rfl, addrOfBytes_toNat⟩

end Sys2Proof.Proofs
end

section
/-! The fetch at `PC` and the encoder (R100, R101, R108): the instruction a step runs is the one whose encoding stands
there, and an Immediate value is the byte after the opcode (R110). -/

namespace Sys2Proof.Proofs

open Sys2Proof.Machine Sys2Proof.Claims Sys2Proof.Laws

theorem modelParams_legal : modelParams.legal = true := by decide

/-! ## From the fetched bytes to the instruction -/

/-- A fetch that decodes holds no byte after the operand. -/
theorem rest_of_decode_fetchBytes {s : State} {i : Instr} {rest : List Byte}
    (h : decode (fetchBytes s) = .ok (i, rest)) : rest = [] := by
  cases hf : formOf modelParams (opcodeAt s) with
  | none => cases h.symm.trans (decode_fetchBytes_of_formOf_none hf)
  | some f =>
    obtain ⟨j, hdec, -⟩ := exists_decode_fetchBytes hf
    cases h.symm.trans hdec
    rfl

/-- Settles O26: the fetch takes exactly the bytes of its opcode's row, and what decodes is well-formed. -/
theorem stepRunsDecodedInstruction : Obligations.StepRunsDecodedInstruction := by
  intro s i rest h
  obtain ⟨-, hwf⟩ := encodeAfterDecode modelParams _ rest i modelParams_legal h
  exact ⟨step_of_decode_fetchBytes h, rest_of_decode_fetchBytes h, hwf⟩

/-- The byte after the opcode is the first operand byte of the fetched instruction, if it has one. -/
theorem readByte_succ_pc_of_operand_bytes {s : State} {i : Instr} {rest more : List Byte} {b1 : Byte}
    (h : decode (fetchBytes s) = .ok (i, rest)) (hbytes : i.operand.bytes = b1 :: more) :
    readByte (s.pc + 1#16) s = b1 := by
  obtain ⟨henc, -⟩ := encodeAfterDecode modelParams _ rest i modelParams_legal h
  rw [encodeWith, hbytes] at henc
  have hread : readBytes (operandCount modelParams (opcodeAt s)) (s.pc + 1#16) s = b1 :: (more ++ rest) :=
    (List.cons.inj henc).right
  generalize operandCount modelParams (opcodeAt s) = n at hread
  cases n with
  | zero => cases hread
  | succ n => exact (List.cons.inj hread).left

/-- Only loads take an Immediate operand (R118). -/
theorem mnemonic_of_operand_immediate {i : Instr} {b1 : Byte} (hop : i.operand = .immediate b1) :
    i.mnemonic = .lda ∨ i.mnemonic = .ldx ∨ i.mnemonic = .ldy := by
  cases i with
  | ldaImmediate => exact .inl rfl
  | ldxImmediate => exact .inr (.inl rfl)
  | ldyImmediate => exact .inr (.inr rfl)
  | _ => cases hop

/-- Settles O14: the operand's one byte is the byte fetched after the opcode. -/
theorem immediateValueIsTheByteAtItsAddress : Obligations.ImmediateValueIsTheByteAtItsAddress := by
  intro s i rest b1 h hop
  have hvalue : readByte (s.pc + 1#16) s = b1 :=
    readByte_succ_pc_of_operand_bytes (more := []) h (by rw [hop, Operand.bytes])
  have hlength : i.entry.nbytes = 2 := by
    rw [Instr.entry, hop]
    rfl
  rw [hop, pcPlus_eq]
  exact ⟨rfl, hvalue, hlength, mnemonic_of_operand_immediate hop⟩

/-! ## From the encoding to the fetch -/

/-- Cells that hold some bytes in order are read as those bytes. -/
theorem readBytes_eq_take {bytes : List Byte} {k : Addr} {s : State} {n : Nat}
    (hcell : ∀ j (h : j < bytes.length), readByte (k + BitVec.ofNat 16 j) s = bytes[j]) (hn : n ≤ bytes.length) :
    readBytes n k s = bytes.take n := by
  induction n generalizing bytes k with
  | zero => rfl
  | succ n ih =>
    cases bytes with
    | nil => simp at hn
    | cons b rest =>
      have hhead : readByte k s = b := by simpa using hcell 0 (Nat.succ_pos _)
      have htail : readBytes n (k + 1#16) s = rest.take n :=
        ih (fun j hj => add_one_add_ofNat k j ▸ hcell (j + 1) (Nat.succ_lt_succ hj)) (Nat.le_of_succ_le_succ hn)
      rw [readBytes, hhead, htail, List.take_succ_cons]

/-- Bytes that decode to `i` with nothing after it, standing from `PC` on, are fetched as `i`. -/
theorem decode_fetchBytes_of_cells {bytes : List Byte} {i : Instr} {s : State} (hdec : decode bytes = .ok (i, []))
    (hcell : ∀ j (h : j < bytes.length), readByte (s.pc + BitVec.ofNat 16 j) s = bytes[j]) :
    decode (fetchBytes s) = .ok (i, []) := by
  cases bytes with
  | nil => cases hdec
  | cons op rest =>
    obtain ⟨hcount, htake⟩ := decodeWith_take_operandCount hdec
    have hop : readByte s.pc s = op := by simpa using hcell 0 (Nat.succ_pos _)
    rw [fetchBytes_eq_readBytes, hop, readBytes_eq_take hcell (Nat.succ_le_succ hcount), List.take_succ_cons]
    exact htake

/-- Settles O27: an encoding decodes to its instruction, and so does the fetch of it. -/
theorem stepRunsInstructionEncodedAtPC : Obligations.StepRunsInstructionEncodedAtPC := by
  intro s i hwf hcell
  have hdec : decode (encode i) = .ok (i, []) := by
    rw [← List.append_nil (encode i)]
    exact decodeAfterEncode modelParams i [] hwf
  have hfetch : decode (fetchBytes s) = .ok (i, []) :=
    decode_fetchBytes_of_cells hdec fun j hj => ofNat_toNat_add_mod s.pc j ▸ hcell j hj
  exact ⟨hfetch, step_of_decode_fetchBytes hfetch⟩

end Sys2Proof.Proofs
end

section
/-! What a completed instruction leaves: `PC` (R106), all that its rule does not list (R105), and `Z` and `N` (R119),
each by the nine shapes of an instruction. -/

namespace Sys2Proof.Proofs

open Sys2Proof.Machine Sys2Proof.Claims Sys2Proof.Laws

/-! ## The program counter -/

/-- Every instruction but JMP advances `PC` by its entry's length, whatever else it does. -/
theorem pc_of_exec {i : Instr} {s t : State} (hne : ∀ target, i ≠ .jmpAbsolute target) (h : exec i s = .next t) :
    t.pc = s.pc + BitVec.ofNat 16 i.operand.mode.nbytes := by
  have hshape := exec_shape i
  generalize exec i = f at h hshape
  cases hshape with
  | load r src hop =>
    cases h
    obtain ⟨-, -, -, -, hpc, -⟩ := loadReg_effect r src s
    rw [hpc, hop, sourceOperand_mode]
  | store r m hop =>
    cases h
    obtain ⟨-, -, -, hpc, -⟩ := storeReg_effect r m s
    rw [hpc, hop, Operand.mode]
  | transfer src dst hsrc hop =>
    cases h
    obtain ⟨-, -, -, -, hpc, -⟩ := transferReg_effect modelParams.transferSetsNZ src dst s
    rw [hpc, hop, Operand.mode, Mode.nbytes]
  | add d r hop =>
    cases h
    obtain ⟨-, -, -, -, hpc, -⟩ := addToReg_effect d r s
    rw [hpc, hop, Operand.mode, Mode.nbytes]
  | clear g hg hop | set g hg hop =>
    cases h
    rw [hop]
    rfl
  | nop =>
    cases h
    rfl
  | jump target => exact absurd rfl (hne target)
  | unimplemented => cases h

theorem exists_jmpAbsolute_of_mnemonic {i : Instr} (h : i.mnemonic = .jmp) : ∃ target, i = .jmpAbsolute target := by
  cases i with
  | jmpAbsolute target => exact ⟨target, rfl⟩
  | _ => cases h

/-- A fetched JMP leaves `PC` at the 16-bit operand that stands after its opcode (R205). -/
theorem pc_of_step_jmpAbsolute {s t : State} (hop : opcodeAt s = 0x4C#8) (h : step s = .next t) :
    t.pc = operand16 s := by
  have hform : formOf modelParams 0x4C#8 = some (.f3 .jmpAbsolute) := rfl
  cases h.symm.trans (step_of_f3 (hop ▸ hform))
  rfl

/-- Settles O29: the entry is the decoded instruction's, and `advance` is false for JMP alone. -/
theorem programCounterAdvancesByEntryLength : Obligations.ProgramCounterAdvancesByEntryLength := by
  intro s t e he h
  obtain ⟨f, hf, rfl⟩ := Option.map_eq_some_iff.mp he
  obtain ⟨i, hdec, hi⟩ := exists_decode_fetchBytes hf
  obtain ⟨hop, hentry⟩ := opcodeOf_and_entry_of_builds hf hi
  rw [← hentry]
  refine ⟨fun hadv => ?_, fun hadv => ?_⟩
  · have hne : ∀ target, i ≠ .jmpAbsolute target := by
      rintro target rfl
      cases hadv
    rw [pc_of_exec hne ((step_of_decode_fetchBytes hdec).symm.trans h), BitVec.toNat_add, BitVec.toNat_ofNat,
      Nat.add_mod_mod]
    rfl
  · obtain ⟨target, rfl⟩ := exists_jmpAbsolute_of_mnemonic ((advances_eq_false_iff i.mnemonic).mp hadv)
    exact pc_of_step_jmpAbsolute hop.symm h

/-! ## The frame -/

/-- The footprint of the families that write one register and then `SetNZ` its value. -/
theorem frame_of_setNZ {m : Mnemonic} {r : Reg} {v : Byte} {s t : State} (hreg : regsWritten m = [r])
    (hflag : flagsWritten m = [.z, .n]) (hregs : ∀ q, q ≠ r → getReg q t = getReg q s)
    (hflags : t.flags = s.flags.setNZ v) :
    (∀ q, q ∉ regsWritten m → getReg q t = getReg q s)
    ∧ (∀ g, g ∉ flagsWritten m → getFlag g t = getFlag g s) := by
  obtain ⟨hkept, -⟩ := get_setNZ_of_flagsWritten hflag v s.flags s.flags
  exact ⟨fun q hq => hregs q (List.ne_of_not_mem_cons (hreg ▸ hq)),
    fun g hg => (congrArg (Flags.get g) hflags).trans (hkept g hg)⟩

/-- The registers and flags outside an instruction's footprint (R21, R28). -/
theorem exec_frame {i : Instr} {s t : State} (h : exec i s = .next t) :
    (∀ q, q ∉ regsWritten i.mnemonic → getReg q t = getReg q s)
    ∧ (∀ g, g ∉ flagsWritten i.mnemonic → getFlag g t = getFlag g s) := by
  have hshape := exec_shape i
  generalize exec i = o at h hshape
  cases hshape with
  | load r src hop hread hreg hflag =>
    cases h
    obtain ⟨-, hregs, hflags, -⟩ := loadReg_effect r src s
    exact frame_of_setNZ hreg hflag hregs hflags
  | add d r hop hread hreg hflag =>
    cases h
    obtain ⟨-, hregs, hflags, -⟩ := addToReg_effect d r s
    exact frame_of_setNZ hreg hflag hregs hflags
  | store r m =>
    cases h
    obtain ⟨hregs, hflags, -⟩ := storeReg_effect r m s
    exact ⟨fun q _ => hregs q, fun g _ => congrArg (Flags.get g) hflags⟩
  | transfer src dst hsrc hop hread hreg hflag =>
    cases h
    obtain ⟨-, hregs, hflags, -⟩ := transferReg_effect modelParams.transferSetsNZ src dst s
    exact ⟨fun q hq => hregs q (List.ne_of_not_mem_cons (hreg ▸ hq)), fun g _ => congrArg (Flags.get g) hflags⟩
  | clear f hf hop hread hreg hflag | set f hf hop hread hreg hflag =>
    cases h
    obtain ⟨hregs, -⟩ := assignFlag_effect f _ s
    obtain ⟨hkept, -⟩ := get_set_of_flagsWritten hflag _ s.flags s.flags
    exact ⟨fun q _ => hregs q, hkept⟩
  | nop =>
    cases h
    exact ⟨fun q _ => getReg_advancePC q 1 s, fun _ _ => rfl⟩
  | jump target =>
    cases h
    exact ⟨fun q _ => getReg_setPC q target s, fun _ _ => rfl⟩
  | unimplemented => cases h

/-- A completed instruction changes no cell but the one it stores to. -/
theorem readByte_of_exec {i : Instr} {s t : State} {k : Addr} (h : exec i s = .next t)
    (hk : ∀ m r, i.operand = .memory m → dataUse i.mnemonic = .writes r → k ≠ effectiveAddress m s) :
    readByte k t = readByte k s := by
  rcases storeWrites_cases i s with hnil | ⟨m, r, hop, huse, -⟩
  · rw [readByte, mem_of_exec h, hnil, applyWrites, readByte]
  · cases h.symm.trans (exec_of_store hop huse s)
    exact readByte_storeReg_ne r (hk m r hop huse)

theorem tick_of_step_fault {s : State} {f : Fault} (h : step s = .fault f) : tick s = s := by
  rw [tick, h, stateAfter]

/-- Settles O30: the frame of registers and flags, the frame of memory, and a fault that carries no state. -/
theorem stepChangesOnlyWhatIsListed : Obligations.StepChangesOnlyWhatIsListed := by
  refine ⟨fun i s t h => ?_, fun _ _ h => tick_of_step_fault h⟩
  obtain ⟨-, -, hsp⟩ := exec_effect h
  obtain ⟨hregs, hflags⟩ := exec_frame h
  exact ⟨hsp, hregs, hflags, fun _ hk => readByte_of_exec h hk⟩

/-! ## `Z` and `N` -/

/-- A load, increment or decrement ends with `SetNZ` of the register it wrote (R130, R180). -/
theorem flags_of_exec_setNZ {i : Instr} {s t : State} {r : Reg} (hreg : regsWritten i.mnemonic = [r])
    (hflag : flagsWritten i.mnemonic = [.z, .n]) (h : exec i s = .next t) :
    t.flags = s.flags.setNZ (getReg r t) := by
  have hshape := exec_shape i
  generalize exec i = f at h hshape
  cases hshape with
  | load q src _ _ hreg' =>
    cases hreg.symm.trans hreg'
    cases h
    obtain ⟨hvalue, -, hflags, -⟩ := loadReg_effect r src s
    rw [hflags, hvalue]
  | add d q _ _ hreg' =>
    cases hreg.symm.trans hreg'
    cases h
    obtain ⟨hvalue, -, hflags, -⟩ := addToReg_effect d r s
    rw [hflags, hvalue]
  | store _ _ _ _ _ hflag' | transfer _ _ _ _ _ _ hflag' | clear _ _ _ _ _ hflag' | set _ _ _ _ _ hflag' =>
    cases hflag.symm.trans hflag'
  | nop | jump => cases hflag
  | unimplemented => cases h

/-- Settles O31: the flags are `SetNZ` of the result, in the spec's integer arithmetic. -/
theorem zeroAndNegativeDescribeTheResult : Obligations.ZeroAndNegativeDescribeTheResult := by
  intro i s t r hreg hflag h
  have hflags : t.flags = withNZ (getReg r t) s.flags :=
    (flags_of_exec_setNZ hreg hflag h).trans (setNZ_eq_withNZ _ _)
  have hz : t.flags.z = true ↔ (getReg r t).toNat = 0 := by rw [hflags, withNZ, decide_eq_true_iff]
  have hn : t.flags.n = true ↔ 128 ≤ (getReg r t).toNat := by rw [hflags, withNZ, decide_eq_true_iff]
  refine ⟨hz, hn, ?_⟩
  rw [hz, hn]
  omega

end Sys2Proof.Proofs
end

section
/-! The Load family (R130 to R148): what a load answers in the words of the statements, and the accesses of a fetched
load; and the four indirect rows, which fault instead (R137, R138, R156, R157, R212). -/

namespace Sys2Proof.Proofs

open Sys2Proof.Machine Sys2Proof.Claims Sys2Proof.Laws

/-! ## The load's next state -/

theorem sourceValue_memory_eq_memValue (m : MemOperand) (s : State) : sourceValue (.memory m) s = memValue m s := by
  rw [memValue, cell, ofNat_eaOf, sourceValue]

theorem loadReg_eq_setReg (r : Reg) (src : Source) (s : State) :
    loadReg r src s = setReg r (sourceValue src s)
      { s with flags := withNZ (sourceValue src s) s.flags, pc := pcPlus src.mode.nbytes s } := by
  rw [loadReg, setNZ_setReg, advancePC_setReg, pcPlus_eq, ← setNZ_eq_withNZ]
  rfl

/-- An instruction whose meaning is the load rule (R130) with an Immediate operand. -/
theorem exec_of_loadReg_immediate {i : Instr} {r : Reg} {b1 : Byte} {s : State}
    (h : exec i s = .next (loadReg r (.immediate b1) s)) :
    exec i s = .next (setReg r b1 { s with flags := withNZ b1 s.flags, pc := pcPlus 2 s }) := by
  rw [h, loadReg_eq_setReg]
  rfl

/-- An instruction whose meaning is the load rule (R130) from a memory cell. -/
theorem exec_of_loadReg_memory {i : Instr} {r : Reg} {m : MemOperand} {s : State}
    (h : exec i s = .next (loadReg r (.memory m) s)) :
    exec i s = .next (setReg r (memValue m s)
      { s with flags := withNZ (memValue m s) s.flags, pc := pcPlus m.mode.nbytes s }) := by
  rw [h, loadReg_eq_setReg, sourceValue_memory_eq_memValue]
  rfl

/-! ## The accesses of a fetched instruction -/

theorem operandReads_eq_map_range (n : Nat) (k : Addr) :
    operandReads n k = (List.range n).map fun j => .read (k + BitVec.ofNat 16 j) := by
  induction n generalizing k with
  | zero => rfl
  | succ n ih => simp [operandReads, ih, List.range_succ_eq_map, add_one_add_ofNat]

/-- The opcode fetch and the operand reads are the reads of the instruction bytes at ascending addresses (R58). -/
theorem read_pc_cons_operandReads (n : Nat) (s : State) :
    .read s.pc :: operandReads n (s.pc + 1#16) = fetches (n + 1) s := by
  simp only [fetches, ofNat_toNat_add_mod]
  exact operandReads_eq_map_range (n + 1) s.pc

/-- The instruction a row makes of the operand bytes that stand after the opcode at `PC` (R101, R108). -/
def fetchedInstr (f : Form) (s : State) : Instr :=
  match f with
  | .f1 i => i
  | .f2 mk => mk (operand1 s)
  | .f3 mk => mk (operand16 s)

theorem decode_fetchBytes_of_formOf {s : State} {f : Form} (h : formOf modelParams (opcodeAt s) = some f) :
    decode (fetchBytes s) = .ok (fetchedInstr f s, []) := by
  cases f with
  | f1 i => exact decode_fetchBytes_of_f1 h
  | f2 mk => exact decode_fetchBytes_of_f2 h
  | f3 mk => exact decode_fetchBytes_of_f3 h

theorem encodes_of_accesses {op : Byte} {f : Form} {n : Nat} {data : List Access} {s : State}
    (hf : formOf modelParams op = some f)
    (hdata : accessesAfterOpcode (fetchedInstr f s) s = operandReads n (s.pc + 1#16) ++ data) :
    Encodes op (fetchedInstr f s) (n + 1) data s := by
  rintro rfl
  have hdec := decode_fetchBytes_of_formOf hf
  refine ⟨step_of_decode_fetchBytes hdec, ?_⟩
  rw [busTrace_of_decode hdec, hdata, ← List.cons_append, read_pc_cons_operandReads]

theorem encodes_of_immediate {op b1 : Byte} {f : Form} {s : State} (hf : formOf modelParams op = some f)
    (hop : (fetchedInstr f s).operand = .immediate b1) : Encodes op (fetchedInstr f s) 2 [] s :=
  encodes_of_accesses (n := 1) hf (accessesAfterOpcode_of_immediate hop s)

theorem memOperand_nbytes_pos (m : MemOperand) : 0 < m.mode.nbytes := by
  cases m <;> exact Nat.succ_pos _

theorem encodes_of_memory {op : Byte} {f : Form} {m : MemOperand} {s : State} (hf : formOf modelParams op = some f)
    (hop : (fetchedInstr f s).operand = .memory m) :
    Encodes op (fetchedInstr f s) m.mode.nbytes
      (dataAccess (dataUse (fetchedInstr f s).mnemonic) (effectiveAddress m s) s) s := by
  have henc := encodes_of_accesses hf (accessesAfterOpcode_of_memory hop s)
  rwa [Nat.sub_add_cancel (memOperand_nbytes_pos m)] at henc

/-- A load makes one data read, at its effective address, after the reads of its bytes (R58, R118). -/
theorem encodes_of_load {op : Byte} {f : Form} {m : MemOperand} {s : State} (hf : formOf modelParams op = some f)
    (hop : (fetchedInstr f s).operand = .memory m) (huse : dataUse (fetchedInstr f s).mnemonic = .reads) :
    Encodes op (fetchedInstr f s) m.mode.nbytes (readAt m s) s := by
  have henc := encodes_of_memory hf hop
  rwa [huse, dataAccess, ← ofNat_eaOf] at henc

/-! ## The three load mnemonics -/

/-- Settles O15: each mode is `loadReg` into `A`, and its row builds it from the bytes after the opcode. -/
theorem ldaLoadsAccumulator : Obligations.LdaLoadsAccumulator := fun _ b1 base =>
  ⟨exec_of_loadReg_immediate (r := .a) rfl,
    exec_of_loadReg_memory (r := .a) (m := .zeroPage b1) rfl,
    exec_of_loadReg_memory (r := .a) (m := .zeroPageX b1) rfl,
    exec_of_loadReg_memory (r := .a) (m := .absolute base) rfl,
    exec_of_loadReg_memory (r := .a) (m := .absoluteX base) rfl,
    exec_of_loadReg_memory (r := .a) (m := .absoluteY base) rfl,
    encodes_of_immediate (f := .f2 .ldaImmediate) rfl rfl,
    encodes_of_load (f := .f2 .ldaZeroPage) rfl rfl rfl,
    encodes_of_load (f := .f2 .ldaZeroPageX) rfl rfl rfl,
    encodes_of_load (f := .f3 .ldaAbsolute) rfl rfl rfl,
    encodes_of_load (f := .f3 .ldaAbsoluteX) rfl rfl rfl,
    encodes_of_load (f := .f3 .ldaAbsoluteY) rfl rfl rfl⟩

/-- Settles O16: as LDA, into `X`. -/
theorem ldxLoadsIndexX : Obligations.LdxLoadsIndexX := fun _ b1 base =>
  ⟨exec_of_loadReg_immediate (r := .x) rfl,
    exec_of_loadReg_memory (r := .x) (m := .zeroPage b1) rfl,
    exec_of_loadReg_memory (r := .x) (m := .zeroPageY b1) rfl,
    exec_of_loadReg_memory (r := .x) (m := .absolute base) rfl,
    exec_of_loadReg_memory (r := .x) (m := .absoluteY base) rfl,
    encodes_of_immediate (f := .f2 .ldxImmediate) rfl rfl,
    encodes_of_load (f := .f2 .ldxZeroPage) rfl rfl rfl,
    encodes_of_load (f := .f2 .ldxZeroPageY) rfl rfl rfl,
    encodes_of_load (f := .f3 .ldxAbsolute) rfl rfl rfl,
    encodes_of_load (f := .f3 .ldxAbsoluteY) rfl rfl rfl⟩

/-- Settles O17: as LDA, into `Y`. -/
theorem ldyLoadsIndexY : Obligations.LdyLoadsIndexY := fun _ b1 base =>
  ⟨exec_of_loadReg_immediate (r := .y) rfl,
    exec_of_loadReg_memory (r := .y) (m := .zeroPage b1) rfl,
    exec_of_loadReg_memory (r := .y) (m := .zeroPageX b1) rfl,
    exec_of_loadReg_memory (r := .y) (m := .absolute base) rfl,
    exec_of_loadReg_memory (r := .y) (m := .absoluteX base) rfl,
    encodes_of_immediate (f := .f2 .ldyImmediate) rfl rfl,
    encodes_of_load (f := .f2 .ldyZeroPage) rfl rfl rfl,
    encodes_of_load (f := .f2 .ldyZeroPageX) rfl rfl rfl,
    encodes_of_load (f := .f3 .ldyAbsolute) rfl rfl rfl,
    encodes_of_load (f := .f3 .ldyAbsoluteX) rfl rfl rfl⟩

/-! ## The indirect modes -/

theorem unimplemented_of_mem_indirectRows {op : Byte} {f : Form} (h : (op, f) ∈ indirectRows) :
    f.entry.mode.unimplemented = true := by
  obtain ⟨hmode | hmode, -⟩ := entry_of_mem_indirectRows h <;> rw [hmode] <;> rfl

/-- Settles O25: the four bytes have rows, whose mode faults with the row's opcode before the operand is read. -/
theorem indirectModesFault : Obligations.IndirectModesFault := by
  intro s b1
  refine ⟨exec_of_unimplemented rfl s, exec_of_unimplemented rfl s, exec_of_unimplemented rfl s,
    exec_of_unimplemented rfl s, fun hop => ?_⟩
  obtain ⟨f, hrow⟩ := exists_mem_indirectRows hop
  obtain ⟨hstep, htrace⟩ := step_and_busTrace_of_unimplemented (formOf_of_mem_indirectRows rfl hrow)
    (unimplemented_of_mem_indirectRows hrow)
  exact ⟨hstep, tick_of_step_fault hstep, htrace⟩

end Sys2Proof.Proofs
end

section
/-! The Store family (R150 to R163): what a store answers in the words of the statements, and the accesses of a
fetched store. -/

namespace Sys2Proof.Proofs

open Sys2Proof.Machine Sys2Proof.Claims Sys2Proof.Laws

/-! ## The store rule in the words of the statements -/

/-- The store rule (R150) is all that `Stores` says. -/
theorem stores_storeReg (r : Reg) (m : MemOperand) (s : State) :
    Stores m (getReg r s) m.mode.nbytes s (.next (storeReg r m s)) := by
  obtain ⟨hregs, hflags, hsp, hpc, -⟩ := storeReg_effect r m s
  exact ⟨storeReg r m s, rfl, toNat_effectiveAddress m s, fun hwf => readByte_storeReg_same hwf r m,
    fun _ hne => readByte_storeReg_ne r hne, hregs .a, hregs .x, hregs .y, hsp, hflags,
    hpc.trans (pcPlus_eq _ s).symm⟩

theorem stores_exec {i : Instr} {m : MemOperand} {r : Reg} {s : State} (hop : i.operand = .memory m)
    (huse : dataUse i.mnemonic = .writes r) : Stores m (getReg r s) m.mode.nbytes s (exec i s) := by
  rw [exec_of_store hop huse]
  exact stores_storeReg r m s

/-- A store makes one write, at its effective address, after the reads of its bytes (R58, R118). -/
theorem encodes_of_store {op : Byte} {f : Form} {m : MemOperand} {r : Reg} {s : State}
    (hf : formOf modelParams op = some f) (hop : (fetchedInstr f s).operand = .memory m)
    (huse : dataUse (fetchedInstr f s).mnemonic = .writes r) :
    Encodes op (fetchedInstr f s) m.mode.nbytes (writeAt m (getReg r s) s) s := by
  have henc := encodes_of_memory hf hop
  rwa [huse, dataAccess, ← ofNat_eaOf] at henc

/-! ## The three store mnemonics -/

/-- Settles O18: each mode writes `A` to its memory operand, and its row builds it from the bytes after the opcode. -/
theorem staStoresAccumulator : Obligations.StaStoresAccumulator := fun _ b1 base =>
  ⟨stores_exec (i := .staZeroPage b1) rfl rfl,
    stores_exec (i := .staZeroPageX b1) rfl rfl,
    stores_exec (i := .staAbsolute base) rfl rfl,
    stores_exec (i := .staAbsoluteX base) rfl rfl,
    stores_exec (i := .staAbsoluteY base) rfl rfl,
    encodes_of_store (f := .f2 .staZeroPage) rfl rfl rfl,
    encodes_of_store (f := .f2 .staZeroPageX) rfl rfl rfl,
    encodes_of_store (f := .f3 .staAbsolute) rfl rfl rfl,
    encodes_of_store (f := .f3 .staAbsoluteX) rfl rfl rfl,
    encodes_of_store (f := .f3 .staAbsoluteY) rfl rfl rfl⟩

/-- Settles O19: as STA, from `X` and from `Y`. -/
theorem stxAndStyStoreIndexRegisters : Obligations.StxAndStyStoreIndexRegisters := fun _ b1 base =>
  ⟨stores_exec (i := .stxZeroPage b1) rfl rfl,
    stores_exec (i := .stxZeroPageY b1) rfl rfl,
    stores_exec (i := .stxAbsolute base) rfl rfl,
    stores_exec (i := .styZeroPage b1) rfl rfl,
    stores_exec (i := .styZeroPageX b1) rfl rfl,
    stores_exec (i := .styAbsolute base) rfl rfl,
    encodes_of_store (f := .f2 .stxZeroPage) rfl rfl rfl,
    encodes_of_store (f := .f2 .stxZeroPageY) rfl rfl rfl,
    encodes_of_store (f := .f3 .stxAbsolute) rfl rfl rfl,
    encodes_of_store (f := .f2 .styZeroPage) rfl rfl rfl,
    encodes_of_store (f := .f2 .styZeroPageX) rfl rfl rfl,
    encodes_of_store (f := .f3 .styAbsolute) rfl rfl rfl⟩

end Sys2Proof.Proofs
end

section
/-! The Transfer family (R170 to R174): what a transfer answers under each setting of `TRANSFER_SETS_NZ`, and the
accesses of a fetched instruction without an operand. -/

namespace Sys2Proof.Proofs

open Sys2Proof.Machine Sys2Proof.Claims Sys2Proof.Laws

/-- An instruction of one byte makes no access but its own fetch (R58, R109). -/
theorem encodes_of_implied {op : Byte} {f : Form} {s : State} (hf : formOf modelParams op = some f)
    (hop : (fetchedInstr f s).operand = .implied) : Encodes op (fetchedInstr f s) 1 [] s :=
  encodes_of_accesses (n := 0) hf (accessesAfterOpcode_of_implied hop s)

/-! ## The transfer rule in the words of the statements -/

theorem transferReg_false_eq_setReg (src dst : Reg) (s : State) :
    transferReg false src dst s = setReg dst (getReg src s) { s with pc := pcPlus 1 s } := by
  rw [transferReg, if_neg Bool.false_ne_true, advancePC_setReg, pcPlus_eq]
  rfl

/-- The switch adds `SetNZ` of the copied value, and nothing else (R170). -/
theorem transferReg_true_eq_withNZ (src dst : Reg) (s : State) :
    transferReg true src dst s = { transferReg false src dst s with flags := withNZ (getReg src s) s.flags } := by
  rw [transferReg_false_eq_setReg, transferReg, if_pos rfl, setNZ_setReg, advancePC_setReg, ← setNZ_eq_withNZ,
    pcPlus_eq]
  cases dst <;> rfl

/-- An instruction whose meaning is the transfer rule (R170) with the switch off, as in `modelParams` (D9). -/
theorem exec_of_transferReg {i : Instr} {src dst : Reg} {s : State}
    (h : exec i s = .next (transferReg false src dst s)) :
    exec i s = .next (setReg dst (getReg src s) { s with pc := pcPlus 1 s }) := by
  rw [h, transferReg_false_eq_setReg]

/-! ## The four transfers -/

/-- Settles O20: each transfer is `transferReg` with the switch off, and its row builds it from the opcode alone. -/
theorem transfersCopyARegister : Obligations.TransfersCopyARegister := fun s =>
  ⟨exec_of_transferReg (src := .a) (dst := .x) rfl,
    exec_of_transferReg (src := .x) (dst := .a) rfl,
    exec_of_transferReg (src := .a) (dst := .y) rfl,
    exec_of_transferReg (src := .y) (dst := .a) rfl,
    encodes_of_implied (f := .f1 .tax) rfl rfl,
    encodes_of_implied (f := .f1 .txa) rfl rfl,
    encodes_of_implied (f := .f1 .tay) rfl rfl,
    encodes_of_implied (f := .f1 .tya) rfl rfl,
    fun src dst => transferReg_true_eq_withNZ src dst s⟩

end Sys2Proof.Proofs
end

section
/-! The Increment/Decrement family (R180 to R185): what the five answer in the words of the statements, and a run of
increments. -/

namespace Sys2Proof.Proofs

open Sys2Proof.Machine Sys2Proof.Claims Sys2Proof.Laws

/-! ## The increment rule in the words of the statements -/

/-- The spec's integer sum `(v + n) mod 256` as a byte. -/
theorem byte_ofNat_toNat_add_mod (v : Byte) (n : Nat) :
    BitVec.ofNat 8 ((v.toNat + n) % 256) = v + BitVec.ofNat 8 n := by
  apply BitVec.eq_of_toNat_eq
  simp

theorem addToReg_eq_setReg (d : Byte) (r : Reg) (s : State) :
    addToReg d r s = setReg r (getReg r s + d)
      { s with flags := withNZ (getReg r s + d) s.flags, pc := pcPlus 1 s } := by
  rw [addToReg, setNZ_setReg, advancePC_setReg, pcPlus_eq, ← setNZ_eq_withNZ]
  rfl

/-- An instruction whose meaning is the increment rule (R180), which adds `n` modulo 256. -/
theorem exec_of_addToReg {i : Instr} {n : Nat} {r : Reg} {s : State}
    (h : exec i s = .next (addToReg (BitVec.ofNat 8 n) r s)) :
    exec i s = .next (setReg r (BitVec.ofNat 8 (((getReg r s).toNat + n) % 256))
      { s with flags := withNZ (BitVec.ofNat 8 (((getReg r s).toNat + n) % 256)) s.flags, pc := pcPlus 1 s }) := by
  rw [h, addToReg_eq_setReg, byte_ofNat_toNat_add_mod]

/-! ## The five instructions -/

/-- Settles O21: each is `addToReg` of 1, or of 255 to count down, and its row builds it from the opcode alone. -/
theorem incrementsAndDecrementsWrap : Obligations.IncrementsAndDecrementsWrap := fun _ =>
  ⟨exec_of_addToReg (n := 1) (r := .x) rfl,
    exec_of_addToReg (n := 1) (r := .y) rfl,
    exec_of_addToReg (n := 255) (r := .x) rfl,
    exec_of_addToReg (n := 255) (r := .y) rfl,
    exec_of_addToReg (n := 1) (r := .a) rfl,
    encodes_of_implied (f := .f1 .inx) rfl rfl,
    encodes_of_implied (f := .f1 .iny) rfl rfl,
    encodes_of_implied (f := .f1 .dex) rfl rfl,
    encodes_of_implied (f := .f1 .dey) rfl rfl,
    encodes_of_implied (f := .f1 .incA) rfl rfl⟩

/-! ## A run of increments -/

/-- An instruction that always completes runs as the iterate of its next-state function. -/
theorem execTimes_eq_iterate {i : Instr} {f : State → State} (h : ∀ s, exec i s = .next (f s)) (k : Nat) (s : State) :
    execTimes k i s = .next (f^[k] s) := by
  induction k generalizing s with
  | zero => rfl
  | succ k ih =>
    rw [execTimes, h, Function.iterate_succ_apply]
    exact ih (f s)

/-- What `k` increments of one register do: `addToReg_effect` over a run. -/
theorem iterate_addToReg_one_effect (r : Reg) (k : Nat) (s : State) :
    getReg r ((addToReg 1#8 r)^[k] s) = getReg r s + BitVec.ofNat 8 k
    ∧ (∀ q, q ≠ r → getReg q ((addToReg 1#8 r)^[k] s) = getReg q s)
    ∧ ((addToReg 1#8 r)^[k] s).pc = s.pc + BitVec.ofNat 16 k
    ∧ ((addToReg 1#8 r)^[k] s).mem = s.mem := by
  induction k with
  | zero => simp
  | succ k ih =>
    obtain ⟨hvalue, hother, hpc, hmem⟩ := ih
    rw [Function.iterate_succ_apply']
    obtain ⟨hvalue', hother', -, -, hpc', hmem'⟩ := addToReg_effect 1#8 r ((addToReg 1#8 r)^[k] s)
    refine ⟨?_, fun q hq => (hother' q hq).trans (hother q hq), ?_, hmem'.trans hmem⟩
    · rw [hvalue', hvalue, BitVec.add_assoc, BitVec.ofNat_add]
    · rw [hpc', hpc, BitVec.add_assoc, BitVec.ofNat_add]

/-- Z describes the register that was written (R119). -/
theorem addToReg_z (d : Byte) (r : Reg) (s : State) :
    (addToReg d r s).flags.z = true ↔ (getReg r (addToReg d r s)).toNat = 0 := by
  obtain ⟨hvalue, -, hflags, -⟩ := addToReg_effect d r s
  rw [hvalue, hflags, setNZ_eq_withNZ]
  exact decide_eq_true_iff

/-- Settles O49: the run is the iterate of `addToReg 1`, and Z is that of its last increment. -/
theorem repeatedInxCountsModulo256 : Obligations.RepeatedInxCountsModulo256 := by
  intro k s
  obtain ⟨hvalue, hother, hpc, hmem⟩ := iterate_addToReg_one_effect .x k s
  have hx : (getReg .x ((addToReg 1#8 .x)^[k] s)).toNat = (s.x.toNat + k) % 256 := by
    rw [hvalue, BitVec.toNat_add, BitVec.toNat_ofNat, Nat.add_mod_mod]
    rfl
  refine ⟨_, execTimes_eq_iterate (fun _ => rfl) k s, hx, hother .a nofun, hother .y nofun, hmem,
    hpc.trans (pcPlus_eq k s).symm, fun hk => ?_⟩
  obtain ⟨j, rfl⟩ := Nat.exists_eq_add_one.mpr hk
  rw [← hx, Function.iterate_succ_apply']
  exact addToReg_z 1#8 .x _

end Sys2Proof.Proofs
end

section
/-! The Flag family (R190 to R197): what an instruction that assigns one flag answers in the words of the
statements. -/

namespace Sys2Proof.Proofs

open Sys2Proof.Machine Sys2Proof.Claims Sys2Proof.Laws

theorem assignFlag_eq_withFlags (f : Flag) (q : Bool) (s : State) :
    assignFlag f q s = { s with flags := s.flags.set f q, pc := pcPlus 1 s } := by
  rw [pcPlus_eq]
  rfl

/-- An instruction whose meaning is the flag rule (R190). -/
theorem exec_of_assignFlag {i : Instr} {f : Flag} {q : Bool} {s : State} (h : exec i s = .next (assignFlag f q s)) :
    exec i s = .next { s with flags := s.flags.set f q, pc := pcPlus 1 s } := by
  rw [h, assignFlag_eq_withFlags]

/-- Settles O22: each is `assignFlag` of its flag and value, and its row builds it from the opcode alone. -/
theorem flagInstructionsAssignOneFlag : Obligations.FlagInstructionsAssignOneFlag := fun _ =>
  ⟨exec_of_assignFlag (f := .c) (q := false) rfl,
    exec_of_assignFlag (f := .c) (q := true) rfl,
    exec_of_assignFlag (f := .i) (q := false) rfl,
    exec_of_assignFlag (f := .i) (q := true) rfl,
    exec_of_assignFlag (f := .d) (q := false) rfl,
    exec_of_assignFlag (f := .d) (q := true) rfl,
    exec_of_assignFlag (f := .v) (q := false) rfl,
    encodes_of_implied (f := .f1 .clc) rfl rfl,
    encodes_of_implied (f := .f1 .sec) rfl rfl,
    encodes_of_implied (f := .f1 .cli) rfl rfl,
    encodes_of_implied (f := .f1 .sei) rfl rfl,
    encodes_of_implied (f := .f1 .cld) rfl rfl,
    encodes_of_implied (f := .f1 .sed) rfl rfl,
    encodes_of_implied (f := .f1 .clv) rfl rfl⟩

end Sys2Proof.Proofs
end

section
/-! The NOP family (R200): what NOP answers in the words of the statements. -/

namespace Sys2Proof.Proofs

open Sys2Proof.Machine Sys2Proof.Claims Sys2Proof.Laws

/-- Settles O23: NOP is the one-byte advance of `PC` (R106), and its row builds it from the opcode alone. -/
theorem nopOnlyAdvances : Obligations.NopOnlyAdvances := by
  intro s
  have hexec : exec .nop s = .next { s with pc := pcPlus 1 s } := by
    rw [pcPlus_eq]
    rfl
  exact ⟨hexec, encodes_of_implied (f := .f1 .nop) rfl rfl⟩

end Sys2Proof.Proofs
end

section
/-! Jump (R205): the step on a fetched JMP, whose next state is the same but for `PC`. -/

namespace Sys2Proof.Proofs

open Sys2Proof.Machine Sys2Proof.Claims Sys2Proof.Laws

/-- No wrap is lost when the operand's two bytes become an address (R114). -/
theorem toNat_operand16 (s : State) : (operand16 s).toNat = (operand1 s).toNat + 256 * (operand2 s).toNat := by
  rw [← addrOfBytes_operands, addrOfBytes_toNat]

theorem exec_jmpAbsolute (target : Addr) (s : State) : exec (.jmpAbsolute target) s = .next { s with pc := target } :=
  rfl

theorem encodes_jmpAbsolute (s : State) : Encodes 0x4C#8 (.jmpAbsolute (operand16 s)) 3 [] s :=
  encodes_of_memory (f := .f3 .jmpAbsolute) (m := .absolute (operand16 s)) rfl rfl

theorem step_of_jmpAbsolute {s : State} (h : opcodeAt s = 0x4C#8) : step s = .next { s with pc := operand16 s } := by
  obtain ⟨hstep, -⟩ := encodes_jmpAbsolute s h
  rw [hstep, exec_jmpAbsolute]

/-- Settles O24: JMP writes its operand to `PC`, and its row builds the operand from the two bytes after the opcode. -/
theorem jumpLandsExactlyOnTarget : Obligations.JumpLandsExactlyOnTarget := fun s =>
  ⟨fun target => exec_jmpAbsolute target s, encodes_jmpAbsolute s,
    fun hop => ⟨_, step_of_jmpAbsolute hop, toNat_operand16 s⟩⟩

end Sys2Proof.Proofs
end

section
/-! What a step answers, decided by the opcode byte alone (R88, R210 to R217). -/

namespace Sys2Proof.Proofs

open Sys2Proof.Machine Sys2Proof.Claims Sys2Proof.Laws

/-! ## The bytes with a row -/

/-- The map has the 49 rows that the spec's table lists, in another order (R86). -/
theorem opcodeRows_perm_assignedBytes : ((opcodeRows modelParams).map fun row => row.1.toNat).Perm assignedBytes := by
  decide

theorem formOf_eq_none_iff (op : Byte) : formOf modelParams op = none ↔ op.toNat ∉ assignedBytes := by
  rw [← opcodeRows_perm_assignedBytes.mem_iff, formOf, List.lookup_eq_none_iff, List.mem_map, not_exists]
  refine forall_congr' fun row => ?_
  rw [bne_iff_ne, not_and, BitVec.toNat_inj, ne_comm]

theorem opcodeTable_eq_none_iff (p : Params) (op : Byte) : opcodeTable p op = none ↔ formOf p op = none :=
  Option.map_eq_none_iff

/-- Settles O11: a byte outside the list has no row, and the fetch of one reads it and reports it. -/
theorem unassignedBytesFault : Obligations.UnassignedBytesFault := by
  refine ⟨by decide, by decide, fun op => ?_, fun s hop => ?_⟩
  · rw [opcodeTable_eq_none_iff, formOf_eq_none_iff]
  · have hnone : formOf modelParams (opcodeAt s) = none := (formOf_eq_none_iff _).mpr hop
    have hstep := step_of_formOf_none hnone
    exact ⟨hstep, tick_of_step_fault hstep, busTrace_of_formOf_none hnone⟩

/-! ## The three outcomes -/

theorem unimplemented_iff (m : Mode) : m.unimplemented = true ↔ m = .indirectX ∨ m = .indirectY := by
  cases m <;> decide

/-- Every instruction with a working mode completes, from every state (R215). -/
theorem exists_exec_next {i : Instr} (hmode : i.operand.mode.unimplemented = false) (s : State) :
    ∃ t, exec i s = .next t := by
  have hshape := exec_shape i
  generalize exec i = o at hshape ⊢
  cases hshape with
  | unimplemented op himode => exact absurd himode (Bool.eq_false_iff.mp hmode)
  | _ => exact ⟨_, rfl⟩

theorem exists_step_next {s : State} {f : Form} (hf : formOf modelParams (opcodeAt s) = some f)
    (hmode : f.entry.mode.unimplemented = false) : ∃ t, step s = .next t := by
  obtain ⟨i, hdec, hi⟩ := exists_decode_fetchBytes hf
  rw [step_of_decode_fetchBytes hdec]
  exact exists_exec_next (by rw [operand_mode_of_builds hf hi, hmode]) s

/-- Settles O28: no row, a row with an indirect mode, or a row whose instruction completes. -/
theorem opcodeByteDecidesOutcome : Obligations.OpcodeByteDecidesOutcome := by
  refine fun s => ⟨fun hnone => step_of_formOf_none ((opcodeTable_eq_none_iff _ _).mp hnone), fun e he => ?_⟩
  obtain ⟨f, hf, rfl⟩ := Option.map_eq_some_iff.mp he
  refine ⟨fun hmode => ?_, fun hx hy => ?_⟩
  · obtain ⟨hstep, -⟩ := step_and_busTrace_of_unimplemented hf ((unimplemented_iff _).mpr hmode)
    exact hstep
  · have hmode : ¬f.entry.mode.unimplemented = true := fun h => ((unimplemented_iff _).mp h).elim hx hy
    exact exists_step_next hf (Bool.eq_false_iff.mpr hmode)

/-- The three outcomes of a step; it is never refused (R217, R227). -/
theorem step_cases (s : State) :
    (∃ t, step s = .next t)
    ∨ step s = .fault (.unrecognizedOpcode (opcodeAt s) s.pc)
    ∨ step s = .fault (.unimplementedMode (opcodeAt s) s.pc) := by
  cases hf : formOf modelParams (opcodeAt s) with
  | none => exact .inr (.inl (step_of_formOf_none hf))
  | some f =>
    cases hmode : f.entry.mode.unimplemented with
    | false => exact .inl (exists_step_next hf hmode)
    | true =>
      obtain ⟨hstep, -⟩ := step_and_busTrace_of_unimplemented hf hmode
      exact .inr (.inr hstep)

/-- Settles O37: each outcome of the step has its result, and a fault leaves the state. -/
theorem stepResultHasCodeAndPayload : Obligations.StepResultHasCodeAndPayload := by
  intro s
  rw [tickResult]
  rcases step_cases s with ⟨t, h⟩ | h | h
  · rw [tick_of_step h, h]
    exact ⟨_, rfl, .inl ⟨rfl, rfl, rfl, rfl⟩⟩
  · rw [tick_of_step_fault h, h]
    exact ⟨_, rfl, .inr (.inl ⟨rfl, rfl, rfl, rfl⟩)⟩
  · rw [tick_of_step_fault h, h]
    exact ⟨_, rfl, .inr (.inr ⟨rfl, rfl, rfl, rfl⟩)⟩

end Sys2Proof.Proofs
end

section
/-! Runs (R213, R253, R254): a state that its own tick leaves as it was, and a run over NOPs into a fault. -/

namespace Sys2Proof.Proofs

open Sys2Proof.Machine Sys2Proof.Claims Sys2Proof.Laws

/-! ## A state that the tick leaves -/

theorem ticks_of_tick_eq {s : State} (h : tick s = s) (k : Nat) : ticks k s = s := by
  induction k with
  | zero => rfl
  | succ k ih => rw [ticks_succ, h, ih]

/-- Settles O38: a tick that is not Ok leaves the state, so the next tick starts from it again. -/
theorem faultRepeatsForEver : Obligations.FaultRepeatsForEver := by
  intro s k hfault
  have htick : tick s = s :=
    (step_eq_next_tick_or_tick_eq s).resolve_left fun hstep => hfault (tickResult_of_step hstep)
  rw [ticks_of_tick_eq htick]
  exact ⟨rfl, rfl⟩

/-- Settles O39: the jump's next state is the state itself, so every tick of the run is that one. -/
theorem closedJumpEndsOnlyByTickCount : Obligations.ClosedJumpEndsOnlyByTickCount := by
  intro s hop htarget
  have hstep : step s = .next s := by
    rw [step_of_jmpAbsolute hop, htarget]
  have hticks : ∀ k, ticks k s = s := ticks_of_tick_eq (tick_of_step hstep)
  have hok : ∀ k, tickResult (ticks k s) = some .ok := fun k => by
    rw [hticks, tickResult_of_step hstep]
  refine ⟨fun k => ⟨hticks k, hok k⟩, ?_, ?_, fun _ => rfl⟩
  · rintro _ ⟨n, -, -, hfault⟩
    exact hfault (hok n)
  · rintro addr k hne ⟨hpc, -⟩
    rw [hticks] at hpc
    exact hne hpc.symm

/-! ## A run over NOPs -/

theorem step_of_nop {s : State} (h : opcodeAt s = 0xEA#8) : step s = .next { s with pc := pcPlus 1 s } := by
  obtain ⟨hexec, henc⟩ := nopOnlyAdvances s
  obtain ⟨hstep, -⟩ := henc h
  rw [hstep, hexec]

theorem pcPlus_one_withPC_pcPlus (n : Nat) (s : State) : pcPlus 1 { s with pc := pcPlus n s } = pcPlus (n + 1) s := by
  simp only [pcPlus_eq, BitVec.add_assoc, BitVec.ofNat_add]

/-- `n` NOPs in a row move `PC` past them and do nothing else. -/
theorem ticks_of_nops {s : State} {n : Nat} (hnop : ∀ k, k < n → cell ((s.pc.toNat + k) % 65536) s = 0xEA#8) :
    ticks n s = { s with pc := pcPlus n s } := by
  induction n with
  | zero => rw [pcPlus_zero, ticks_zero]
  | succ n ih =>
    have hop : opcodeAt { s with pc := pcPlus n s } = 0xEA#8 := hnop n n.lt_succ_self
    rw [ticks_add, ih fun k hk => hnop k (hk.trans n.lt_succ_self), ticks_succ, ticks_zero,
      tick_of_step (step_of_nop hop), pcPlus_one_withPC_pcPlus]

theorem faultFree_of_nops {s : State} {n : Nat} (hnop : ∀ k, k < n → cell ((s.pc.toNat + k) % 65536) s = 0xEA#8) :
    faultFree n s := by
  intro j hj
  have hop : opcodeAt { s with pc := pcPlus j s } = 0xEA#8 := hnop j hj
  rw [ticks_of_nops fun k hk => hnop k (hk.trans hj), tickResult_of_step (step_of_nop hop)]

/-- Settles O40: the first `n` ticks are NOPs, the next one meets a byte without a row, and that fault repeats. -/
theorem straightLineRunEndsAtFirstUnassignedByte : Obligations.StraightLineRunEndsAtFirstUnassignedByte := by
  intro s n hnop hend
  have hticks := ticks_of_nops hnop
  have hstep : step { s with pc := pcPlus n s }
      = .fault (.unrecognizedOpcode (cell ((s.pc.toNat + n) % 65536) s) (pcPlus n s)) :=
    step_of_formOf_none ((formOf_eq_none_iff _).mpr hend)
  have hresult : tickResult { s with pc := pcPlus n s }
      = some (.unrecognizedOpcode (cell ((s.pc.toNat + n) % 65536) s) (pcPlus n s)) := by
    rw [tickResult, hstep, resultOf]
  have hrun : runEnds .firstFault s (n + 1) := by
    refine ⟨n, rfl, faultFree_of_nops hnop, ?_⟩
    rw [hticks, hresult]
    exact nofun
  refine ⟨fun k => ⟨fun h => runEnds_unique h hrun, fun h => h ▸ hrun⟩, fun k hk => ?_⟩
  obtain ⟨j, rfl⟩ := Nat.exists_eq_add_of_le hk
  rw [ticks_add, hticks, ticks_of_tick_eq (tick_of_step_fault hstep)]
  exact ⟨rfl, hresult⟩

end Sys2Proof.Proofs
end

section
/-! Reset and construction (R240 to R242): the same state, a function of the memory and the entry address. -/

namespace Sys2Proof.Proofs

open Sys2Proof.Machine Sys2Proof.Claims Sys2Proof.Laws

theorem resetTo_eq_construct (pc : Addr) (s : State) : resetTo pc s = construct s.mem pc := rfl

/-- The reset value of the flags in R32's layout (R42). -/
theorem toP_reset : Flags.reset.toP = 0x20#8 := by decide

/-- Settles O2: construction writes the reset values of R42 beside the memory and the address it is given. -/
theorem constructionIsTheResetState : Obligations.ConstructionIsTheResetState := by
  intro mem pc
  refine ⟨rfl, ?_, toP_reset⟩
  rintro s rfl
  exact (resetTo_eq_construct pc s).symm

/-- Settles O1: reset is construction on the memory as it stands, so only the memory goes into it. -/
theorem resetSetsRegistersKeepsMemory : Obligations.ResetSetsRegistersKeepsMemory := by
  intro pc s
  refine ⟨rfl, rfl, rfl, rfl, rfl, rfl, fun _ => rfl, resetTo_eq_construct pc s, fun s' hmem => ?_⟩
  rw [resetTo_eq_construct, hmem, resetTo_eq_construct]

end Sys2Proof.Proofs
end
